-- ==== Sys2Proof/Word.lean ====
section
/-! DEFINITION. The machine word, the byte and the register index (spec 00_scope.md R8, R11). -/

namespace Sys2Proof

/-- A machine word: an unsigned 32-bit value with arithmetic modulo 2^32 (00_scope.md R8, R11). -/
abbrev Word := BitVec 32

/-- One byte of memory (10_state.md R34). -/
abbrev Byte := BitVec 8

/-- A general-register index: a 5-bit field of the instruction word, each value legal (30_encoding.md R65). -/
abbrev RegIdx := BitVec 5

end Sys2Proof
end

