-- ==== Sys2Proof/Machine/Flags.lean ====
section
/-! DEFINITION. The hardware has no flags and no condition codes (spec 10_state.md R31); the conditions its
instructions test are computed here from register values (41_integer_compute.md R121, R122, R125, R127;
43_control_transfer.md R163). -/

namespace Sys2Proof.Machine

/-- `seqz`'s condition `src1 <u 1`, unsigned (41_integer_compute.md R121, R125; 90_conflicts.md C6). -/
def belowOne (src1 : Word) : Bool := src1.ult 1#32

/-- `beq`'s condition: equality of all 32 bits (43_control_transfer.md R163). -/
def wordsEqual (src1 src2 : Word) : Bool := src1 == src2

/-- A condition as the word 1 or 0 (41_integer_compute.md R121). -/
def conditionWord (c : Bool) : Word := if c then 1#32 else 0#32

/-- The shift amount `src2 & 31` (41_integer_compute.md R122, R127). -/
def shiftAmount (src2 : Word) : Nat := (src2 &&& 31#32).toNat

end Sys2Proof.Machine
end

