-- ==== Sys2Proof/Syntax.lean ====
section
/-! DEFINITION. The 14 entries of the instruction table as syntax (spec 30_encoding.md R66, R76). -/

namespace Sys2Proof

/-- The closed enumeration of encoding formats (30_encoding.md R66). -/
inductive Format where
  | I | U | S | N | J | B | R
deriving DecidableEq, Repr

/-- One constructor per row of the instruction table, in declaration order (30_encoding.md R76).
Immediates are kept at their encoded width: 12 bits in formats I and S, 20 bits in U, the 20-bit halfword count in J
(R71), and in B the 13-bit byte offset whose bit 0 is always 0 (R72). -/
inductive Instr where
  | lw (rd rs1 : RegIdx) (imm : BitVec 12)
  | addi (rd rs1 : RegIdx) (imm : BitVec 12)
  | seqz (rd rs1 : RegIdx)
  | jal (rd : RegIdx) (imm : BitVec 20)
  | sw (rs1 rs2 : RegIdx) (imm : BitVec 12)
  | srl (rd rs1 rs2 : RegIdx)
  | ret
  | jalr (rd rs1 : RegIdx) (imm : BitVec 12)
  | beq (rs1 rs2 : RegIdx) (imm : BitVec 13)
  | auipc (rd : RegIdx) (imm : BitVec 20)
  | lbu (rd rs1 : RegIdx) (imm : BitVec 12)
  | sb (rs1 rs2 : RegIdx) (imm : BitVec 12)
  | ebreak
  | inv
deriving DecidableEq, Repr

/-- The format of each entry: "Every instruction template is associated with exactly one format"
(30_encoding.md R64, R76). -/
def Instr.format : Instr → Format
  | .lw _ _ _ => .I
  | .addi _ _ _ => .I
  | .seqz _ _ => .I
  | .jal _ _ => .J
  | .sw _ _ _ => .S
  | .srl _ _ _ => .R
  | .ret => .I
  | .jalr _ _ _ => .I
  | .beq _ _ _ => .B
  | .auipc _ _ => .U
  | .lbu _ _ _ => .I
  | .sb _ _ _ => .S
  | .ebreak => .N
  | .inv => .N

/-- The mnemonic of an entry, as opcode_table.json spells it. -/
def Instr.mnemonic : Instr → String
  | .lw _ _ _ => "lw"
  | .addi _ _ _ => "addi"
  | .seqz _ _ => "seqz"
  | .jal _ _ => "jal"
  | .sw _ _ _ => "sw"
  | .srl _ _ _ => "srl"
  | .ret => "ret"
  | .jalr _ _ _ => "jalr"
  | .beq _ _ _ => "beq"
  | .auipc _ _ => "auipc"
  | .lbu _ _ _ => "lbu"
  | .sb _ _ _ => "sb"
  | .ebreak => "ebreak"
  | .inv => "inv"

end Sys2Proof
end

