-- ==== Sys2Proof/WellFormed.lean ====
section
/-! DEFINITION. Which instructions are ones a word can stand for (spec 30_encoding.md R72, R77, R81, R84). -/

namespace Sys2Proof

/-- The two checks the encoding leaves to syntax.
A branch offset is even: "An odd offset cannot be encoded in B or J: bit 0 has no place in the word"
(30_encoding.md R81); format J keeps the halfword count, so only B has the check.
The operands of `jalr x0, x1, 0` are no `jalr`: their one word is the earlier entry `ret` (R77, R84). -/
def Instr.wellFormed : Instr → Bool
  | .lw _ _ _ => true
  | .addi _ _ _ => true
  | .seqz _ _ => true
  | .jal _ _ => true
  | .sw _ _ _ => true
  | .srl _ _ _ => true
  | .ret => true
  | .jalr rd rs1 imm => !(rd == 0#5 && rs1 == 1#5 && imm == 0#12)
  | .beq _ _ imm => !imm.getLsbD 0
  | .auipc _ _ => true
  | .lbu _ _ _ => true
  | .sb _ _ _ => true
  | .ebreak => true
  | .inv => true

end Sys2Proof
end

