-- ==== Sys2Proof/Decode.lean ====
section
/-! DEFINITION. The bit-pattern matcher, the ordered instruction table, the decoder from words and from bytes, and
the encoder (spec 30_encoding.md R60 to R84). -/

namespace Sys2Proof

/-! ### Templates (30_encoding.md R61, R62, R64) -/

/-- One significant character of a template: `0`, `1` or `?` (30_encoding.md R61). -/
inductive TemplateBit where
  | zero | one | any
deriving DecidableEq, Repr

/-- The characters of a template without its spaces; `none` where some character is none of the four
(30_encoding.md R61). -/
def templateBits : List Char → Option (List TemplateBit)
  | [] => some []
  | c :: rest =>
    match templateBits rest with
    | none => none
    | some bits =>
      if c = ' ' then some bits
      else if c = '0' then some (.zero :: bits)
      else if c = '1' then some (.one :: bits)
      else if c = '?' then some (.any :: bits)
      else none

/-- A template must resolve to exactly 32 characters; anything else is caught when the table is built, never at
decode time (30_encoding.md R61, R64). -/
def parseTemplate (template : String) : Option (List TemplateBit) :=
  match templateBits template.toList with
  | some bits => if bits.length = 32 then some bits else none
  | none => none

/-- `matches(word, template)` of 30_encoding.md R62 over the characters from bit `bits.length - 1` down to bit 0. -/
def templateMatches : List TemplateBit → Word → Bool
  | [], _ => true
  | .any :: rest, w => templateMatches rest w
  | .zero :: rest, w => !w.getLsbD rest.length && templateMatches rest w
  | .one :: rest, w => w.getLsbD rest.length && templateMatches rest w

/-- `mask` of a template: 1 where the character is `0` or `1` (30_encoding.md R62). -/
def templateMask : List TemplateBit → Word
  | [] => 0
  | .any :: rest => templateMask rest
  | .zero :: rest => BitVec.twoPow 32 rest.length ||| templateMask rest
  | .one :: rest => BitVec.twoPow 32 rest.length ||| templateMask rest

/-- `match` of a template: 1 where the character is `1` (30_encoding.md R62). -/
def templateValue : List TemplateBit → Word
  | [] => 0
  | .any :: rest => templateValue rest
  | .zero :: rest => templateValue rest
  | .one :: rest => BitVec.twoPow 32 rest.length ||| templateValue rest

/-! ### Fields of the instruction word (30_encoding.md R65 to R72) -/

/-- `opcode = inst[6:0]` (30_encoding.md R65). -/
def opcodeField (w : Word) : BitVec 7 := w.extractLsb' 0 7

/-- `funct3 = inst[14:12]` (30_encoding.md R65). -/
def funct3Field (w : Word) : BitVec 3 := w.extractLsb' 12 3

/-- `funct7 = inst[31:25]` (30_encoding.md R65). -/
def funct7Field (w : Word) : BitVec 7 := w.extractLsb' 25 7

/-- `rd = inst[11:7]` (30_encoding.md R65). -/
def rdField (w : Word) : RegIdx := w.extractLsb' 7 5

/-- `rs1 = inst[19:15]` (30_encoding.md R65). -/
def rs1Field (w : Word) : RegIdx := w.extractLsb' 15 5

/-- `rs2 = inst[24:20]` (30_encoding.md R65). -/
def rs2Field (w : Word) : RegIdx := w.extractLsb' 20 5

/-- Format I: `inst[31:20]` (30_encoding.md R68). -/
def immIField (w : Word) : BitVec 12 := w.extractLsb' 20 12

/-- Format U: `inst[31:12]` (30_encoding.md R69). -/
def immUField (w : Word) : BitVec 20 := w.extractLsb' 12 20

/-- Format S: `inst[31:25] : inst[11:7]` (30_encoding.md R70). -/
def immSField (w : Word) : BitVec 12 :=
  ((w.extractLsb' 25 7).setWidth 12 <<< 5) ||| (w.extractLsb' 7 5).setWidth 12

/-- Format J: `inst[31] : inst[19:12] : inst[20] : inst[30:21]`, a count of halfwords (30_encoding.md R71). -/
def immJField (w : Word) : BitVec 20 :=
  ((w.extractLsb' 31 1).setWidth 20 <<< 19) ||| ((w.extractLsb' 12 8).setWidth 20 <<< 11) |||
    ((w.extractLsb' 20 1).setWidth 20 <<< 10) ||| (w.extractLsb' 21 10).setWidth 20

/-- Format B: `inst[31] : inst[7] : inst[30:25] : inst[11:8] : 0`, a byte offset (30_encoding.md R72). -/
def immBField (w : Word) : BitVec 13 :=
  ((w.extractLsb' 31 1).setWidth 13 <<< 12) ||| ((w.extractLsb' 7 1).setWidth 13 <<< 11) |||
    ((w.extractLsb' 25 6).setWidth 13 <<< 5) ||| ((w.extractLsb' 8 4).setWidth 13 <<< 1)

/-! ### The instruction table (30_encoding.md R76) -/

/-- One entry: the template, the `(mask, match)` pair it compiles to, the format, and the instruction read from a
word that the entry selects. -/
structure Entry where
  mnemonic : String
  format   : Format
  template : String
  mask     : Word
  value    : Word
  build    : Word → Instr

/-- `matches(word) = ((word & mask) == match)` (30_encoding.md R62). -/
def Entry.selects (e : Entry) (w : Word) : Bool := (w &&& e.mask) == e.value

/-- Entries 0 to 6 of 30_encoding.md R76. -/
def tableHead : List Entry :=
  [ ⟨"lw", .I, "??????? ????? ????? 010 ????? 0000011", 0x0000707F#32, 0x00002003#32,
      fun w => .lw (rdField w) (rs1Field w) (immIField w)⟩,
    ⟨"addi", .I, "??????? ????? ????? 000 ????? 0010011", 0x0000707F#32, 0x00000013#32,
      fun w => .addi (rdField w) (rs1Field w) (immIField w)⟩,
    ⟨"seqz", .I, "0000000 00001 ????? 011 ????? 0010011", 0xFFF0707F#32, 0x00103013#32,
      fun w => .seqz (rdField w) (rs1Field w)⟩,
    ⟨"jal", .J, "??????? ????? ????? ??? ????? 1101111", 0x0000007F#32, 0x0000006F#32,
      fun w => .jal (rdField w) (immJField w)⟩,
    ⟨"sw", .S, "??????? ????? ????? 010 ????? 0100011", 0x0000707F#32, 0x00002023#32,
      fun w => .sw (rs1Field w) (rs2Field w) (immSField w)⟩,
    ⟨"srl", .R, "0000000 ????? ????? 101 ????? 0110011", 0xFE00707F#32, 0x00005033#32,
      fun w => .srl (rdField w) (rs1Field w) (rs2Field w)⟩,
    ⟨"ret", .I, "0000000 00000 00001 000 00000 1100111", 0xFFFFFFFF#32, 0x00008067#32,
      fun _ => .ret⟩ ]

/-- Entries 7 to 13 of 30_encoding.md R76; the catch-all is last (R64). -/
def tableTail : List Entry :=
  [ ⟨"jalr", .I, "??????? ????? ????? 000 ????? 1100111", 0x0000707F#32, 0x00000067#32,
      fun w => .jalr (rdField w) (rs1Field w) (immIField w)⟩,
    ⟨"beq", .B, "??????? ????? ????? 000 ????? 1100011", 0x0000707F#32, 0x00000063#32,
      fun w => .beq (rs1Field w) (rs2Field w) (immBField w)⟩,
    ⟨"auipc", .U, "??????? ????? ????? ??? ????? 0010111", 0x0000007F#32, 0x00000017#32,
      fun w => .auipc (rdField w) (immUField w)⟩,
    ⟨"lbu", .I, "??????? ????? ????? 100 ????? 0000011", 0x0000707F#32, 0x00004003#32,
      fun w => .lbu (rdField w) (rs1Field w) (immIField w)⟩,
    ⟨"sb", .S, "??????? ????? ????? 000 ????? 0100011", 0x0000707F#32, 0x00000023#32,
      fun w => .sb (rs1Field w) (rs2Field w) (immSField w)⟩,
    ⟨"ebreak", .N, "0000000 00001 00000 000 00000 1110011", 0xFFFFFFFF#32, 0x00100073#32,
      fun _ => .ebreak⟩,
    ⟨"inv", .N, "??????? ????? ????? ??? ????? ???????", 0x00000000#32, 0x00000000#32,
      fun _ => .inv⟩ ]

/-- The instruction table in declaration order; `ret` stands before `jalr` (30_encoding.md R76; 90_conflicts.md C1). -/
def table : List Entry := tableHead ++ tableTail

/-! ### The decoder -/

/-- The first entry, in declaration order, whose template the word matches is the one read (30_encoding.md R63;
40_execute_cycle.md R103). No word matches nothing; that case has the catch-all's outcome (40_execute_cycle.md R106;
90_conflicts.md C5). -/
def decode (w : Word) : Instr :=
  match table.find? (fun e => e.selects w) with
  | some e => e.build w
  | none => .inv

/-- Why bytes are no instruction. Every 32-bit word is some instruction, so the only reason is length. -/
inductive DecodeError where
  /-- Fewer than the four bytes of one instruction (30_encoding.md R60). -/
  | truncated
deriving DecidableEq, Repr

/-- The 32-bit word that four bytes hold, lowest address first: little-endian (20_memory.md R45, R54). -/
def wordOfBytes (b0 b1 b2 b3 : Byte) : Word :=
  (b3.setWidth 32 <<< 24) ||| (b2.setWidth 32 <<< 16) ||| (b1.setWidth 32 <<< 8) ||| b0.setWidth 32

/-- The four bytes of a word, lowest address first: little-endian (20_memory.md R45). -/
def bytesOfWord (w : Word) : List Byte :=
  [w.extractLsb' 0 8, w.extractLsb' 8 8, w.extractLsb' 16 8, w.extractLsb' 24 8]

/-- Decoding bytes: one length, four bytes, and the rest is handed back (30_encoding.md R60). -/
def decodeBytes : List Byte → Except DecodeError (Instr × List Byte)
  | b0 :: b1 :: b2 :: b3 :: rest => .ok (decode (wordOfBytes b0 b1 b2 b3), rest)
  | [] => .error .truncated
  | [_] => .error .truncated
  | [_, _] => .error .truncated
  | [_, _, _] => .error .truncated

/-- The instruction the decoder reads from a row's bits, laid out in memory as the hardware stores them. An
instruction is never longer than 32 bits (30_encoding.md R60), so a longer row is refused (log 14). -/
def decodeTableWord (nbits w : Nat) : Option Instr :=
  if nbits ≤ 32 then
    match decodeBytes (bytesOfWord (BitVec.ofNat 32 (w % 2 ^ nbits))) with
    | .ok (i, _) => some i
    | .error _ => none
  else none

/-- The words that entries 0 to 12 take, said by fields as 30_encoding.md R78 tabulates them; every other word takes
the catch-all. -/
def validWord (w : Word) : Bool :=
  (opcodeField w == 0b0000011#7 && (funct3Field w == 0b010#3 || funct3Field w == 0b100#3)) ||
  (opcodeField w == 0b0010011#7 &&
    (funct3Field w == 0b000#3 || (funct3Field w == 0b011#3 && immIField w == 0x001#12))) ||
  opcodeField w == 0b0010111#7 ||
  (opcodeField w == 0b0100011#7 && (funct3Field w == 0b010#3 || funct3Field w == 0b000#3)) ||
  (opcodeField w == 0b0110011#7 && funct3Field w == 0b101#3 && funct7Field w == 0b0000000#7) ||
  (opcodeField w == 0b1100011#7 && funct3Field w == 0b000#3) ||
  (opcodeField w == 0b1100111#7 && funct3Field w == 0b000#3) ||
  opcodeField w == 0b1101111#7 ||
  w == 0x00100073#32

/-! ### The encoder (30_encoding.md R81) -/

/-- Format I: `imm[11:0] rs1 funct3 rd opcode`. -/
def encodeI (imm : BitVec 12) (rs1 : RegIdx) (funct3 : BitVec 3) (rd : RegIdx) (opcode : BitVec 7) : Word :=
  (imm.setWidth 32 <<< 20) ||| (rs1.setWidth 32 <<< 15) ||| (funct3.setWidth 32 <<< 12) |||
    (rd.setWidth 32 <<< 7) ||| opcode.setWidth 32

/-- Format S: `imm[11:5] rs2 rs1 funct3 imm[4:0] opcode`. -/
def encodeS (imm : BitVec 12) (rs2 rs1 : RegIdx) (funct3 : BitVec 3) (opcode : BitVec 7) : Word :=
  ((imm.extractLsb' 5 7).setWidth 32 <<< 25) ||| (rs2.setWidth 32 <<< 20) ||| (rs1.setWidth 32 <<< 15) |||
    (funct3.setWidth 32 <<< 12) ||| ((imm.extractLsb' 0 5).setWidth 32 <<< 7) ||| opcode.setWidth 32

/-- Format B: `imm[12|10:5] rs2 rs1 funct3 imm[4:1|11] opcode`. -/
def encodeB (imm : BitVec 13) (rs2 rs1 : RegIdx) (funct3 : BitVec 3) (opcode : BitVec 7) : Word :=
  ((imm.extractLsb' 12 1).setWidth 32 <<< 31) ||| ((imm.extractLsb' 5 6).setWidth 32 <<< 25) |||
    (rs2.setWidth 32 <<< 20) ||| (rs1.setWidth 32 <<< 15) ||| (funct3.setWidth 32 <<< 12) |||
    ((imm.extractLsb' 1 4).setWidth 32 <<< 8) ||| ((imm.extractLsb' 11 1).setWidth 32 <<< 7) ||| opcode.setWidth 32

/-- Format U: `imm[31:12] rd opcode`. -/
def encodeU (imm : BitVec 20) (rd : RegIdx) (opcode : BitVec 7) : Word :=
  (imm.setWidth 32 <<< 12) ||| (rd.setWidth 32 <<< 7) ||| opcode.setWidth 32

/-- Format J from the halfword count `imm`, whose bit `k` is bit `k + 1` of the byte offset:
`v[20|10:1|11|19:12] rd opcode`. -/
def encodeJ (imm : BitVec 20) (rd : RegIdx) (opcode : BitVec 7) : Word :=
  ((imm.extractLsb' 19 1).setWidth 32 <<< 31) ||| ((imm.extractLsb' 0 10).setWidth 32 <<< 21) |||
    ((imm.extractLsb' 10 1).setWidth 32 <<< 20) ||| ((imm.extractLsb' 11 8).setWidth 32 <<< 12) |||
    (rd.setWidth 32 <<< 7) ||| opcode.setWidth 32

/-- Format R: `funct7 rs2 rs1 funct3 rd opcode`. -/
def encodeR (funct7 : BitVec 7) (rs2 rs1 : RegIdx) (funct3 : BitVec 3) (rd : RegIdx) (opcode : BitVec 7) : Word :=
  (funct7.setWidth 32 <<< 25) ||| (rs2.setWidth 32 <<< 20) ||| (rs1.setWidth 32 <<< 15) |||
    (funct3.setWidth 32 <<< 12) ||| (rd.setWidth 32 <<< 7) ||| opcode.setWidth 32

/-- The word of a well-formed instruction (30_encoding.md R76, R81). The catch-all has many words; the encoder
gives the source's own example, the all-ones word (R77; DESIGN CHOICE, log 14). -/
def encode : Instr → Word
  | .lw rd rs1 imm => encodeI imm rs1 0b010 rd 0b0000011
  | .addi rd rs1 imm => encodeI imm rs1 0b000 rd 0b0010011
  | .seqz rd rs1 => encodeI 0x001 rs1 0b011 rd 0b0010011
  | .jal rd imm => encodeJ imm rd 0b1101111
  | .sw rs1 rs2 imm => encodeS imm rs2 rs1 0b010 0b0100011
  | .srl rd rs1 rs2 => encodeR 0b0000000 rs2 rs1 0b101 rd 0b0110011
  | .ret => encodeI 0x000 1 0b000 0 0b1100111
  | .jalr rd rs1 imm => encodeI imm rs1 0b000 rd 0b1100111
  | .beq rs1 rs2 imm => encodeB imm rs2 rs1 0b000 0b1100011
  | .auipc rd imm => encodeU imm rd 0b0010111
  | .lbu rd rs1 imm => encodeI imm rs1 0b100 rd 0b0000011
  | .sb rs1 rs2 imm => encodeS imm rs2 rs1 0b000 0b0100011
  | .ebreak => encodeI 0x001 0 0b000 0 0b1110011
  | .inv => 0xFFFFFFFF#32

/-- The bytes of an instruction in memory, lowest address first (20_memory.md R45, R54). -/
def encodeBytes (i : Instr) : List Byte := bytesOfWord (encode i)

end Sys2Proof
end

