-- ==== Sys2Proof/Config.lean ====
section
/-! DEFINITION. The values the model names where the spec leaves reset open, and the spec's defaults of its open
parameters (spec 00_scope.md R9; 70_reset_and_hazards.md R221). -/

namespace Sys2Proof

/-- `RESET_PC` of `State.reset`. DESIGN CHOICE (log 1, unsafe): the spec leaves it open (92_eei_decisions.md D11). -/
def Config.resetPc : Word := 0

/-- `INIT_X[i]` of `State.reset` for x1 to x31. DESIGN CHOICE (log 2, unsafe): the spec leaves it open
(92_eei_decisions.md D12). -/
def Config.resetX : Word := 0

/-- `snpc` and `dnpc` at reset. DESIGN CHOICE (log 4, safe): "no reset value needed", each is overwritten before it
is read (70_reset_and_hazards.md R221). -/
def Config.resetNextPc : Word := 0

/-- What a byte that memory does not list reads as. DESIGN CHOICE (log 3, unsafe for claims about `State.reset`):
`INIT_MEM` is open (92_eei_decisions.md D13). -/
def Config.unlistedByte : Byte := 0

/-- The number of byte locations of the one address space (10_state.md R34). -/
def Config.addressSpace : Nat := 2 ^ 32

end Sys2Proof
end

