-- ==== Sys2Proof/Machine/State.lean ====
section
/-! DEFINITION. The state of CORE and its reference environment as plain data, the reasons a step can stop, and the
state after reset (spec 10_state.md R20 to R38; 70_reset_and_hazards.md R221). -/

namespace Sys2Proof.Machine

/-- The width of one memory request: the interface admits 1, 2 and 4 bytes (20_memory.md R40). -/
inductive Width where
  | one | two | four
deriving DecidableEq, Repr

/-- Memory contents: (address, byte) pairs; an address that is not listed holds `Config.unlistedByte`
(10_state.md R34; 20_memory.md R49; log 3). -/
abbrev Memory := List Host.Cell

/-- The canonical form: addresses strictly rising and inside the address space, no entry equal to what an unlisted
address reads as. -/
abbrev Memory.wf (m : Memory) : Prop :=
  m.Pairwise (fun c d => c.1 < d.1) ∧ ∀ c ∈ m, c.1 < Config.addressSpace ∧ c.2 ≠ Config.unlistedByte

/-- Accesses the memory collaborator does not accept: those of one width whose address lies in `first` to `last`.
A list of these is the launch parameter `MEM_VALID(addr, n)` (00_scope.md R9; 20_memory.md R50; log 5). -/
structure RefusedAccess where
  first : Nat
  last  : Nat
  width : Width
deriving DecidableEq, Repr

/-- One notification of the call tracer: `CallTrace(from, to)` (60_exceptions.md R205). -/
structure CallEdge where
  fromPc : Word
  toPc   : Word
deriving DecidableEq, Repr

/-- The two synchronous events CORE raises, known by name only (60_exceptions.md R190, R193). -/
inductive Signal where
  /-- Raised by `ebreak`; `payload` is register `a0` (60_exceptions.md R191). -/
  | trap (pc payload : Word)
  /-- Raised by the catch-all (60_exceptions.md R192). -/
  | invalidInstruction (pc : Word)
deriving DecidableEq, Repr

/-- What has become of the run in the reference driver (40_execute_cycle.md R111; 60_exceptions.md R198, R199). -/
inductive RunStatus where
  | running
  /-- The defined end of a run and the only final state (60_exceptions.md R198). -/
  | halted (pc payload : Word)
  /-- The run was aborted by an invalid instruction; never final (60_exceptions.md R199). -/
  | aborted (pc : Word)
deriving DecidableEq, Repr

/-- Everything the spec gives the machine: CORE's ExecutionState, the storage of its collaborators, the outgoing
notifications of a step, and the driver's outcome. -/
structure State where
  /-- x0 to x31: plain storage, index 0 included (10_state.md R20, R21, R38). -/
  regs    : Vector Word 32
  /-- Address of the instruction being executed (10_state.md R24). -/
  pc      : Word
  /-- Sequential next pc, presented by fetch (10_state.md R25). -/
  snpc    : Word
  /-- Decided next pc (10_state.md R26). -/
  dnpc    : Word
  /-- The one address space (10_state.md R34). -/
  mem     : Memory
  /-- `MEM_VALID`: what the memory collaborator refuses; no step changes it (00_scope.md R9). -/
  refused : List RefusedAccess
  /-- `TRACE`: `none` where no call tracer is attached, else the edges reported so far, oldest first
  (00_scope.md R9; 60_exceptions.md R205). -/
  trace   : Option (List CallEdge)
  /-- The signal raised by the step; consumed before the next one (10_state.md R37; 70_reset_and_hazards.md R221). -/
  signal  : Option Signal
  /-- The driver's outcome (60_exceptions.md R210). -/
  run     : RunStatus
deriving DecidableEq, Repr

/-- Why the machine stops with a fault. -/
inductive Fault where
  /-- `MemoryRefused(pc, addr, n)`: raised by the memory collaborator on a fetch, load or store it does not accept;
  no architectural effect (20_memory.md R50). Safe: the run goes no further. -/
  | memoryRefused (pc addr : Word) (n : Width)
  /-- `Aborted(pc)`: raised by the driver of a run that an invalid instruction has aborted, when it is asked for
  another step (60_exceptions.md R199; log 8). Safe: the run goes no further. -/
  | runAborted (pc : Word)
deriving DecidableEq, Repr

/-- Why the model gives an instruction no meaning. -/
inductive Refusal where
  /-- Raised by `exec` for an instruction rejected by name; no arm does so. Safe. -/
  | notModelled (mnemonic : String)
deriving DecidableEq, Repr

/-- What a step, an action or an instruction answers. -/
abbrev Result := Host.Outcome State Fault Refusal

/-- The machine right after reset: x0 is 0, no signal, the driver running, every access accepted and no tracer, as
70_reset_and_hazards.md R221 and 00_scope.md R9 say; pc, x1 to x31 and memory at the values log 1 to 3 name, snpc and
dnpc at the value log 4 names. -/
def State.reset : State where
  regs := (Vector.replicate 32 Config.resetX).set 0 0#32
  pc := Config.resetPc
  snpc := Config.resetNextPc
  dnpc := Config.resetNextPc
  mem := []
  refused := []
  trace := none
  signal := none
  run := .running

end Sys2Proof.Machine
end

