-- ==== Sys2Proof/Machine/Ops.lean ====
section
/-! DEFINITION. The shared operations: registers, memory, the frame of one execute cycle, raising a signal, fetch and
the driver (spec 10_state.md; 20_memory.md; 40_execute_cycle.md; 60_exceptions.md). -/

namespace Sys2Proof.Machine

/-! ### Register file (10_state.md R20, R21, R38) -/

/-- `x[i]`: the stored value; index 0 is not special-cased on read (10_state.md R21). -/
def State.x (s : State) (r : RegIdx) : Word := s.regs[r.toNat]'r.isLt

/-- `x[i] <- v`: a write to index 0 is a real write (10_state.md R21). -/
def State.setX (s : State) (r : RegIdx) (v : Word) : State := { s with regs := s.regs.set r.toNat v r.isLt }

/-! ### Memory (20_memory.md) -/

/-- The byte at an address: the listed one, else `Config.unlistedByte`. -/
def Memory.lookup : Memory → Nat → Byte
  | [], _ => Config.unlistedByte
  | c :: rest, a => if c.1 = a then c.2 else Memory.lookup rest a

/-- The list without an address. -/
def Memory.erase (m : Memory) (a : Nat) : Memory := m.filter (fun c => c.1 != a)

/-- The list with an entry put before the first greater address. -/
def Memory.insertCell : Memory → Nat → Byte → Memory
  | [], a, b => [(a, b)]
  | c :: rest, a, b => if a < c.1 then (a, b) :: c :: rest else c :: Memory.insertCell rest a b

/-- A list with the byte at one address replaced, in canonical form. -/
def Memory.update (m : Memory) (a : Nat) (b : Byte) : Memory :=
  if b = Config.unlistedByte then Memory.erase m a else Memory.insertCell (Memory.erase m a) a b

/-- The byte `M[a]`. -/
def Memory.byteAt (m : Memory) (a : Word) : Byte := Memory.lookup m a.toNat

/-- `M[a] <- b`. -/
def Memory.setByte (m : Memory) (a : Word) (b : Byte) : Memory := Memory.update m a.toNat b

/-- `MemRead(addr, n)`: little-endian, byte addresses modulo 2^32, no alignment check, the value placed in a word with
the upper bits zero (20_memory.md R40, R45, R47, R48). -/
def memRead (m : Memory) (a : Word) : Width → Word
  | .one => (m.byteAt a).setWidth 32
  | .two => wordOfBytes (m.byteAt a) (m.byteAt (a + 1#32)) 0#8 0#8
  | .four => wordOfBytes (m.byteAt a) (m.byteAt (a + 1#32)) (m.byteAt (a + 2#32)) (m.byteAt (a + 3#32))

/-- `MemWrite(addr, n, v)`: the low `8n` bits, little-endian, byte addresses modulo 2^32 (20_memory.md R40, R44, R45,
R47, R48). -/
def memWrite (m : Memory) (a : Word) : Width → Word → Memory
  | .one, v => m.setByte a (v.extractLsb' 0 8)
  | .two, v => (m.setByte a (v.extractLsb' 0 8)).setByte (a + 1#32) (v.extractLsb' 8 8)
  | .four, v =>
    (((m.setByte a (v.extractLsb' 0 8)).setByte (a + 1#32) (v.extractLsb' 8 8)).setByte (a + 2#32)
      (v.extractLsb' 16 8)).setByte (a + 3#32) (v.extractLsb' 24 8)

/-- Memory holding given bytes: how `INIT_MEM` is laid down (70_reset_and_hazards.md R223). -/
def Memory.ofCells : List Host.Cell → Memory
  | [] => []
  | c :: rest => (Memory.ofCells rest).setByte (BitVec.ofNat 32 c.1) c.2

/-- The access `(addr, n)` falls under a refusal. -/
def RefusedAccess.covers (r : RefusedAccess) (a : Word) (n : Width) : Bool :=
  r.width == n && decide (r.first ≤ a.toNat) && decide (a.toNat ≤ r.last)

/-- `MEM_VALID(addr, n)` (00_scope.md R9; 20_memory.md R49). -/
def State.memValid (s : State) (a : Word) (n : Width) : Bool := s.refused.all (fun r => !r.covers a n)

/-- Ask the memory collaborator: an access it does not accept ends the step as `MemoryRefused(pc, addr, n)` with no
architectural effect (20_memory.md R50). -/
def withAccess (s : State) (a : Word) (n : Width) (accepted : Result) : Result :=
  if s.memValid a n then accepted else .fault (.memoryRefused s.pc a n)

/-! ### Signals (60_exceptions.md R190 to R200)

Taking an exception, as far as CORE goes: the signal is handed to its collaborator and nothing else happens; no pc,
cause or mode is saved or changed and `dnpc` stays `pc + 4` (R197). There is no return from a trap (R200). -/

/-- `raise Trap(pc, payload)` or `raise InvalidInstruction(pc)` (60_exceptions.md R191, R192, R197). -/
def raiseSignal (e : Signal) (s : State) : State := { s with signal := some e }

/-- `CallTrace(from, to)`: recorded where a tracer is attached, dropped where none is (60_exceptions.md R205). -/
def callTrace (fromPc toPc : Word) (s : State) : State :=
  { s with trace := s.trace.map (fun edges => edges ++ [⟨fromPc, toPc⟩]) }

/-! ### One execute cycle (40_execute_cycle.md R102 to R105) -/

/-- Step 1 of the cycle: `dnpc <- snpc`, with no signal raised yet (40_execute_cycle.md R102; 10_state.md R37). -/
def beginCycle (s : State) : State := { s with dnpc := s.snpc, signal := none }

/-- Step 3 of the cycle: `x[0] <- 0`, for every entry (40_execute_cycle.md R104). -/
def endCycle (s : State) : State := s.setX 0#5 0#32

/-- The cycle around the selected entry's action; `pc` and `snpc` are returned unchanged (40_execute_cycle.md R102 to
R105, R107). A step the memory collaborator refuses does not complete (20_memory.md R50). -/
def executeOnce (action : State → Result) (s : State) : Result :=
  match action (beginCycle s) with
  | .next t => .next (endCycle t)
  | .fault f => .fault f
  | .refused r => .refused r

/-! ### Fetch and the driver (20_memory.md R54; 40_execute_cycle.md R111) -/

/-- `inst <- MemRead(pc, 4); snpc <- pc + 4` (20_memory.md R54; 40_execute_cycle.md R111). -/
def fetchThen (s : State) (execute : Word → State → Result) : Result :=
  withAccess s s.pc .four (execute (memRead s.mem s.pc .four) { s with snpc := s.pc + 4#32 })

/-- The driver's reaction to a completed cycle: halt on `Trap`, abort on `InvalidInstruction`, else `pc <- dnpc`
(40_execute_cycle.md R111; 60_exceptions.md R198, R199). On a signal `pc` stays (log 7; R224 leaves it open), and `Aborted`
is recorded in a next state (log 8). -/
def driverCommit (s : State) : State :=
  match s.signal with
  | none => { s with pc := s.dnpc }
  | some (.trap p payload) => { s with run := .halted p payload, signal := none }
  | some (.invalidInstruction p) => { s with run := .aborted p, signal := none }

/-- The driver after the cycle (40_execute_cycle.md R111). -/
def drive : Result → Result
  | .next t => .next (driverCommit t)
  | .fault f => .fault f
  | .refused r => .refused r

/-- The driver asks for a step only while the run goes on. A halted run is final and stays as it is (60_exceptions.md
R198; log 7); an aborted run is a fault, never final (R199; log 8). -/
def whileRunning (s : State) (go : Result) : Result :=
  match s.run with
  | .running => go
  | .halted _ _ => .next s
  | .aborted p => .fault (.runAborted p)

/-! ### The host before the first step (60_exceptions.md R210; 70_reset_and_hazards.md R221, R223) -/

/-- The state a host starts a run from, for any launch parameters: `RESET_PC`, `INIT_X` (x0 is 0 whatever it says),
`INIT_MEM` as listed bytes, `MEM_VALID` and `TRACE` (00_scope.md R9; 70_reset_and_hazards.md R221, R223). -/
def State.launch (resetPc : Word) (initX : Vector Word 32) (initMem : List Host.Cell)
    (refused : List RefusedAccess) (trace : Bool) : State where
  regs := initX.set 0 0#32
  pc := resetPc
  snpc := Config.resetNextPc
  dnpc := Config.resetNextPc
  mem := Memory.ofCells initMem
  refused := refused
  trace := if trace then some [] else none
  signal := none
  run := .running

/-- The state with a word placed where the next fetch reads, the fetch accepted and the driver running
(70_reset_and_hazards.md R223; log 13). -/
def placeWord (s : State) (w : Word) : State :=
  { s with
    mem := memWrite s.mem s.pc .four w
    refused := s.refused.filter (fun r => !r.covers s.pc .four)
    run := .running }

end Sys2Proof.Machine
end

