-- ==== Sys2Proof/Machine/Operands.lean ====
section
/-! DEFINITION. The format-aware operand decoder: the four decoded operands of every format, once from an
instruction's fields and once from the raw word (spec 30_encoding.md R67 to R75). -/

namespace Sys2Proof.Machine

/-- `ra`, the register pinned in `ret`'s template (10_state.md R22). -/
def ra : RegIdx := 1#5

/-- `a0`, the register `ebreak` carries (10_state.md R22). -/
def a0 : RegIdx := 10#5

/-- DecodedOperands: `rd` an index, `src1` and `src2` register values, `imm` a sign-extended word
(30_encoding.md R67). -/
structure DecodedOperands where
  rd   : RegIdx
  src1 : Word
  src2 : Word
  imm  : Word
deriving DecidableEq, Repr

/-- Format I: `rd`, `src1`, `imm = sext_12` (30_encoding.md R68). -/
def operandsI (rd rs1 : RegIdx) (imm : BitVec 12) (s : State) : DecodedOperands :=
  ⟨rd, s.x rs1, 0#32, imm.signExtend 32⟩

/-- Format U: `rd`, `imm = sext_20 << 12`; no register read (30_encoding.md R69). -/
def operandsU (rd : RegIdx) (imm : BitVec 20) : DecodedOperands := ⟨rd, 0#32, 0#32, imm.signExtend 32 <<< 12⟩

/-- Format S: `src1`, `src2`, `imm = sext_12`; `rd` is extracted, `inst[11:7]`, the low immediate bits, and unused
(30_encoding.md R70). -/
def operandsS (rs1 rs2 : RegIdx) (imm : BitVec 12) (s : State) : DecodedOperands :=
  ⟨imm.extractLsb' 0 5, s.x rs1, s.x rs2, imm.signExtend 32⟩

/-- Format J: `rd`, `imm = sext_20`, a halfword count not yet shifted; no register read (30_encoding.md R71). -/
def operandsJ (rd : RegIdx) (imm : BitVec 20) : DecodedOperands := ⟨rd, 0#32, 0#32, imm.signExtend 32⟩

/-- Format B: `src1`, `src2`, `imm = sext_13`, a byte offset; `rd` is extracted, `inst[11:7]`, immediate bits 4 to 1
and 11, and unused (30_encoding.md R72). -/
def operandsB (rs1 rs2 : RegIdx) (imm : BitVec 13) (s : State) : DecodedOperands :=
  ⟨((imm.extractLsb' 1 4).setWidth 5 <<< 1) ||| (imm.extractLsb' 11 1).setWidth 5, s.x rs1, s.x rs2, imm.signExtend 32⟩

/-- Format N: nothing is populated (30_encoding.md R73). -/
def operandsN : DecodedOperands := ⟨0#5, 0#32, 0#32, 0#32⟩

/-- Format R: `rd`, `src1`, `src2` (30_encoding.md R74). -/
def operandsR (rd rs1 rs2 : RegIdx) (s : State) : DecodedOperands := ⟨rd, s.x rs1, s.x rs2, 0#32⟩

/-- The decoded operands of an instruction in its entry's format (40_execute_cycle.md R103). -/
def instrOperands (i : Instr) (s : State) : DecodedOperands :=
  match i with
  | .lw rd rs1 imm => operandsI rd rs1 imm s
  | .addi rd rs1 imm => operandsI rd rs1 imm s
  | .seqz rd rs1 => operandsI rd rs1 1#12 s
  | .jal rd imm => operandsJ rd imm
  | .sw rs1 rs2 imm => operandsS rs1 rs2 imm s
  | .srl rd rs1 rs2 => operandsR rd rs1 rs2 s
  | .ret => operandsI 0#5 ra 0#12 s
  | .jalr rd rs1 imm => operandsI rd rs1 imm s
  | .beq rs1 rs2 imm => operandsB rs1 rs2 imm s
  | .auipc rd imm => operandsU rd imm
  | .lbu rd rs1 imm => operandsI rd rs1 imm s
  | .sb rs1 rs2 imm => operandsS rs1 rs2 imm s
  | .ebreak => operandsN
  | .inv => operandsN

/-- `decode(word, format)` with the shifts and ors of 30_encoding.md R68 to R74, letter for letter; registers are read
only as the format says (R75). -/
def decodeOperands (f : Format) (w : Word) (s : State) : DecodedOperands :=
  let rd := w.extractLsb' 7 5
  let src1 := s.x (w.extractLsb' 15 5)
  let src2 := s.x (w.extractLsb' 20 5)
  let sign : Word := (w.extractLsb' 31 1).signExtend 32
  match f with
  | .I => ⟨rd, src1, 0#32, (w.extractLsb' 20 12).signExtend 32⟩
  | .U => ⟨rd, 0#32, 0#32, (w.extractLsb' 12 20).signExtend 32 <<< 12⟩
  | .S => ⟨rd, src1, src2, ((w.extractLsb' 25 7).signExtend 32 <<< 5) ||| (w.extractLsb' 7 5).setWidth 32⟩
  | .J =>
    ⟨rd, 0#32, 0#32,
      ((((sign <<< 8) ||| (w.extractLsb' 12 8).setWidth 32) <<< 1 ||| (w.extractLsb' 20 1).setWidth 32) <<< 10) |||
        (w.extractLsb' 21 10).setWidth 32⟩
  | .B =>
    ⟨rd, src1, src2,
      (sign <<< 12) ||| ((w.extractLsb' 7 1).setWidth 32 <<< 11) ||| ((w.extractLsb' 25 6).setWidth 32 <<< 5) |||
        ((w.extractLsb' 8 4).setWidth 32 <<< 1)⟩
  | .N => ⟨0#5, 0#32, 0#32, 0#32⟩
  | .R => ⟨rd, src1, src2, 0#32⟩

/-- `addr = (src1 + imm) mod 2^32`: the one addressing mode (20_memory.md R42; 42_loads_stores.md R144). -/
def effectiveAddress (o : DecodedOperands) : Word := o.src1 + o.imm

end Sys2Proof.Machine
end

