-- ==== Sys2Proof/Machine/Control.lean ====
section
/-! DEFINITION. The control transfers: jal, jalr, ret, beq; no target is checked for alignment (spec
43_control_transfer.md R160 to R167). -/

namespace Sys2Proof.Machine

/-- `dnpc <- target` (10_state.md R26; 00_scope.md R12). -/
def setNextPc (target : Word) (s : State) : State := { s with dnpc := target }

/-- `x[rd] <- pc + 4; dnpc <- pc + (imm << 1)`. -/
def jalAction (o : DecodedOperands) (t : State) : Result :=
  .next (setNextPc (t.pc + (o.imm <<< 1)) (t.setX o.rd (t.pc + 4#32)))

/-- `x[rd] <- pc + 4; dnpc <- src1 + imm`, bit 0 not cleared; `src1` was read before the link write. -/
def jalrAction (o : DecodedOperands) (t : State) : Result :=
  .next (setNextPc (o.src1 + o.imm) (t.setX o.rd (t.pc + 4#32)))

/-- `dnpc <- src1 & 0xFFFFFFFE`, then `CallTrace(pc, dnpc)`; no register written. -/
def retAction (o : DecodedOperands) (t : State) : Result :=
  .next (callTrace t.pc (o.src1 &&& 0xFFFFFFFE#32) (setNextPc (o.src1 &&& 0xFFFFFFFE#32) t))

/-- `if src1 == src2 then dnpc <- pc + imm`, else `dnpc` keeps `snpc`. -/
def beqAction (o : DecodedOperands) (t : State) : Result :=
  .next (if wordsEqual o.src1 o.src2 then setNextPc (t.pc + o.imm) t else t)

/-- `jal` (43_control_transfer.md R160). -/
def execJal (rd : RegIdx) (imm : BitVec 20) (s : State) : Result := executeOnce (jalAction (operandsJ rd imm)) s

/-- `jalr` (43_control_transfer.md R161; 93_implementation_defined.md U6). -/
def execJalr (rd rs1 : RegIdx) (imm : BitVec 12) (s : State) : Result :=
  executeOnce (jalrAction (operandsI rd rs1 imm s)) s

/-- `ret`, whose `src1` is `x[ra]` by its template (43_control_transfer.md R162). -/
def execRet (s : State) : Result := executeOnce (retAction (operandsI 0#5 ra 0#12 s)) s

/-- `beq` (43_control_transfer.md R163). -/
def execBeq (rs1 rs2 : RegIdx) (imm : BitVec 13) (s : State) : Result :=
  executeOnce (beqAction (operandsB rs1 rs2 imm s)) s

end Sys2Proof.Machine
end

