-- ==== Sys2Proof/Machine/Integer.lean ====
section
/-! DEFINITION. The integer computational instructions: addi, seqz, srl, auipc (spec 41_integer_compute.md). -/

namespace Sys2Proof.Machine

/-- `x[rd] <- src1 + imm`. -/
def addiAction (o : DecodedOperands) (t : State) : Result := .next (t.setX o.rd (o.src1 + o.imm))

/-- `x[rd] <- (src1 <u 1) ? 1 : 0`; the decoded immediate is not used. -/
def seqzAction (o : DecodedOperands) (t : State) : Result :=
  .next (t.setX o.rd (conditionWord (belowOne o.src1)))

/-- `x[rd] <- src1 >> (src2 & 31)`, zeros entering at bit 31. -/
def srlAction (o : DecodedOperands) (t : State) : Result :=
  .next (t.setX o.rd (o.src1 >>> shiftAmount o.src2))

/-- `x[rd] <- pc + imm`, `pc` the address of this instruction. -/
def auipcAction (o : DecodedOperands) (t : State) : Result := .next (t.setX o.rd (t.pc + o.imm))

/-- `addi` (41_integer_compute.md R120). -/
def execAddi (rd rs1 : RegIdx) (imm : BitVec 12) (s : State) : Result :=
  executeOnce (addiAction (operandsI rd rs1 imm s)) s

/-- `seqz` (41_integer_compute.md R121). -/
def execSeqz (rd rs1 : RegIdx) (s : State) : Result := executeOnce (seqzAction (operandsI rd rs1 1#12 s)) s

/-- `srl` (41_integer_compute.md R122). -/
def execSrl (rd rs1 rs2 : RegIdx) (s : State) : Result := executeOnce (srlAction (operandsR rd rs1 rs2 s)) s

/-- `auipc` (41_integer_compute.md R123). -/
def execAuipc (rd : RegIdx) (imm : BitVec 20) (s : State) : Result :=
  executeOnce (auipcAction (operandsU rd imm)) s

end Sys2Proof.Machine
end

