-- ==== Sys2Proof/Machine/LoadStore.lean ====
section
/-! DEFINITION. The loads and stores: lw, lbu, sw, sb (spec 42_loads_stores.md; 20_memory.md R40 to R50). -/

namespace Sys2Proof.Machine

/-- The action of a load: one `MemRead`, then the register write; the read is issued whatever `rd` is
(20_memory.md R41, R43; 42_loads_stores.md R140, R141). -/
def loadAction (o : DecodedOperands) (n : Width) (t : State) : Result :=
  withAccess t (effectiveAddress o) n (.next (t.setX o.rd (memRead t.mem (effectiveAddress o) n)))

/-- The action of a store: one `MemWrite` of `src2`; no register written (20_memory.md R41, R44; 42_loads_stores.md
R142, R143). -/
def storeAction (o : DecodedOperands) (n : Width) (t : State) : Result :=
  withAccess t (effectiveAddress o) n (.next { t with mem := memWrite t.mem (effectiveAddress o) n o.src2 })

/-- `x[rd] <- MemRead(src1 + imm, 4)` (42_loads_stores.md R140). -/
def execLw (rd rs1 : RegIdx) (imm : BitVec 12) (s : State) : Result :=
  executeOnce (loadAction (operandsI rd rs1 imm s) .four) s

/-- `x[rd] <- zext_8(MemRead(src1 + imm, 1))` (42_loads_stores.md R141). -/
def execLbu (rd rs1 : RegIdx) (imm : BitVec 12) (s : State) : Result :=
  executeOnce (loadAction (operandsI rd rs1 imm s) .one) s

/-- `MemWrite(src1 + imm, 4, src2)` (42_loads_stores.md R142). -/
def execSw (rs1 rs2 : RegIdx) (imm : BitVec 12) (s : State) : Result :=
  executeOnce (storeAction (operandsS rs1 rs2 imm s) .four) s

/-- `MemWrite(src1 + imm, 1, src2)`; the byte stored is `src2[7:0]` (42_loads_stores.md R143; 20_memory.md R44). -/
def execSb (rs1 rs2 : RegIdx) (imm : BitVec 12) (s : State) : Result :=
  executeOnce (storeAction (operandsS rs1 rs2 imm s) .one) s

end Sys2Proof.Machine
end

