-- ==== Sys2Proof/Machine/System.lean ====
section
/-! DEFINITION. The two signalling entries: ebreak and the catch-all inv (spec 44_system.md). Neither action uses a decoded
operand (R184). -/

namespace Sys2Proof.Machine

/-- `raise Trap(pc, x[10])`; the action reads `a0` itself. -/
def ebreakAction (t : State) : Result := .next (raiseSignal (.trap t.pc (t.x a0)) t)

/-- `raise InvalidInstruction(pc)`. -/
def invAction (t : State) : Result := .next (raiseSignal (.invalidInstruction t.pc) t)

/-- `ebreak`: `dnpc` stays `snpc` and nothing else is written (44_system.md R180). -/
def execEbreak (s : State) : Result := executeOnce ebreakAction s

/-- `inv`: `dnpc` stays `snpc` and nothing else is written (44_system.md R181). -/
def execInv (s : State) : Result := executeOnce invAction s

end Sys2Proof.Machine
end

