-- ==== Sys2Proof/Machine/Dispatch.lean ====
section
/-! DEFINITION. One arm per entry of the instruction table (spec 30_encoding.md R76; 40_execute_cycle.md R103). -/

namespace Sys2Proof.Machine

def exec (i : Instr) (s : State) : Host.Outcome State Fault Refusal :=
  match i with
  | .lw rd rs1 imm => Sys2Proof.Machine.execLw rd rs1 imm s
  | .addi rd rs1 imm => Sys2Proof.Machine.execAddi rd rs1 imm s
  | .seqz rd rs1 => Sys2Proof.Machine.execSeqz rd rs1 s
  | .jal rd imm => Sys2Proof.Machine.execJal rd imm s
  | .sw rs1 rs2 imm => Sys2Proof.Machine.execSw rs1 rs2 imm s
  | .srl rd rs1 rs2 => Sys2Proof.Machine.execSrl rd rs1 rs2 s
  | .ret => Sys2Proof.Machine.execRet s
  | .jalr rd rs1 imm => Sys2Proof.Machine.execJalr rd rs1 imm s
  | .beq rs1 rs2 imm => Sys2Proof.Machine.execBeq rs1 rs2 imm s
  | .auipc rd imm => Sys2Proof.Machine.execAuipc rd imm s
  | .lbu rd rs1 imm => Sys2Proof.Machine.execLbu rd rs1 imm s
  | .sb rs1 rs2 imm => Sys2Proof.Machine.execSb rs1 rs2 imm s
  | .ebreak => Sys2Proof.Machine.execEbreak s
  | .inv => Sys2Proof.Machine.execInv s

end Sys2Proof.Machine
end

