-- ==== Sys2Proof/Machine/Step.lean ====
section
/-! DEFINITION. One step of the reference driver around CORE, and placing an instruction where the next step fetches
it (spec 40_execute_cycle.md R111; 70_reset_and_hazards.md R223). -/

namespace Sys2Proof.Machine

/-- One turn of the driver's loop: fetch, match and decode, one execute cycle, then stop on a signal or
`pc <- dnpc` (40_execute_cycle.md R111). -/
def step (s : State) : Host.Outcome State Fault Refusal :=
  whileRunning s (fetchThen s (fun inst t => drive (exec (decode inst) t)))

/-- `s` with the instruction whose bits are `w` placed at `pc`, so that the next step runs it; the bits above `nbits`
are 0 (70_reset_and_hazards.md R223; log 13). -/
def State.withFetchWord (s : State) (nbits w : Nat) : State := placeWord s (BitVec.ofNat 32 (w % 2 ^ nbits))

end Sys2Proof.Machine
end

