-- ==== Sys2Proof/Safety.lean ====
section
/-! DEFINITION. The terms claims are stated in: the invariant of the machine, what a step leaves unchanged, which
registers an instruction reads and writes, and what counts as a safe run (spec 10_state.md R21, R23; 60_exceptions.md
R194, R198, R199). -/

namespace Sys2Proof.Machine

/-- What holds before every step: memory in canonical form; x0 reads 0 (10_state.md R21); no signal pending
(70_reset_and_hazards.md R221); a recorded outcome names the instruction at `pc`, and a halted one the value of `a0`
(60_exceptions.md R191, R192, R198, R199); every reported return edge has an even target (43_control_transfer.md R162). -/
structure State.Inv (s : State) : Prop where
  memoryCanonical : s.mem.wf
  zeroRegister    : s.x 0#5 = 0#32
  noPending       : s.signal = none
  haltedHere      : ∀ p v, s.run = .halted p v → p = s.pc ∧ v = s.x a0 ∧ s.dnpc = s.pc + 4#32
  abortedHere     : ∀ p, s.run = .aborted p → p = s.pc ∧ s.dnpc = s.pc + 4#32
  edgesEven       : ∀ edges, s.trace = some edges → ∀ e ∈ edges, e.toPc.getLsbD 0 = false

/-- The registers after a step whose action wrote `v` to `rd`: x0 is 0, `rd` holds `v` unless it is x0, every other
register is unchanged (10_state.md R21, R23). -/
def WritesOnly (s t : State) (rd : RegIdx) (v : Word) : Prop :=
  t.x 0#5 = 0#32 ∧ (rd ≠ 0#5 → t.x rd = v) ∧ ∀ r, r ≠ 0#5 → r ≠ rd → t.x r = s.x r

/-- The registers after a step whose action wrote none (10_state.md R21, R23). -/
def WritesNoRegister (s t : State) : Prop := t.x 0#5 = 0#32 ∧ ∀ r, r ≠ 0#5 → t.x r = s.x r

/-- Every byte of memory reads as before. -/
def SameMemory (s t : State) : Prop := ∀ a, t.mem.byteAt a = s.mem.byteAt a

/-- Every byte of memory outside the `n` bytes from `a` on, modulo 2^32, reads as before. -/
def SameMemoryOutside (s t : State) (a : Word) (n : Nat) : Prop :=
  ∀ b, (∀ k, k < n → b ≠ a + BitVec.ofNat 32 k) → t.mem.byteAt b = s.mem.byteAt b

/-- What CORE never writes: `pc` and `snpc` (10_state.md R24, R25), the launch parameter `MEM_VALID` and the driver's
outcome. -/
def SameAround (s t : State) : Prop :=
  t.pc = s.pc ∧ t.snpc = s.snpc ∧ t.refused = s.refused ∧ t.run = s.run

/-- No signal was raised and nothing was reported to the tracer. -/
def NoEvent (s t : State) : Prop := t.signal = none ∧ t.trace = s.trace

/-- The registers the operand decoder or the action reads (10_state.md R23). -/
def sourceRegisters : Instr → List RegIdx
  | .lw _ rs1 _ => [rs1]
  | .addi _ rs1 _ => [rs1]
  | .seqz _ rs1 => [rs1]
  | .jal _ _ => []
  | .sw rs1 rs2 _ => [rs1, rs2]
  | .srl _ rs1 rs2 => [rs1, rs2]
  | .ret => [1#5]
  | .jalr _ rs1 _ => [rs1]
  | .beq rs1 rs2 _ => [rs1, rs2]
  | .auipc _ _ => []
  | .lbu _ rs1 _ => [rs1]
  | .sb rs1 rs2 _ => [rs1, rs2]
  | .ebreak => [10#5]
  | .inv => []

/-- The register the action writes (10_state.md R23). -/
def destinationRegister : Instr → Option RegIdx
  | .lw rd _ _ => some rd
  | .addi rd _ _ => some rd
  | .seqz rd _ => some rd
  | .jal rd _ => some rd
  | .sw _ _ _ => none
  | .srl rd _ _ => some rd
  | .ret => none
  | .jalr rd _ _ => some rd
  | .beq _ _ _ => none
  | .auipc rd _ => some rd
  | .lbu rd _ _ => some rd
  | .sb _ _ _ => none
  | .ebreak => none
  | .inv => none

/-- The entries that write `dnpc`: `jal`, `jalr`, `ret`, and `beq` only when taken (10_state.md R26). -/
def decidesNextPc (i : Instr) (s : State) : Bool :=
  match i with
  | .lw _ _ _ => false
  | .addi _ _ _ => false
  | .seqz _ _ => false
  | .jal _ _ => true
  | .sw _ _ _ => false
  | .srl _ _ _ => false
  | .ret => true
  | .jalr _ _ _ => true
  | .beq rs1 rs2 _ => s.x rs1 == s.x rs2
  | .auipc _ _ => false
  | .lbu _ _ _ => false
  | .sb _ _ _ => false
  | .ebreak => false
  | .inv => false

/-- The store request of an instruction: its address, as the meaning computes it, and its width (20_memory.md R41,
R42). -/
def storeRequest (i : Instr) (s : State) : Option (Word × Width) :=
  match i with
  | .lw _ _ _ => none
  | .addi _ _ _ => none
  | .seqz _ _ => none
  | .jal _ _ => none
  | .sw rs1 rs2 imm => some (effectiveAddress (operandsS rs1 rs2 imm s), .four)
  | .srl _ _ _ => none
  | .ret => none
  | .jalr _ _ _ => none
  | .beq _ _ _ => none
  | .auipc _ _ => none
  | .lbu _ _ _ => none
  | .sb rs1 rs2 imm => some (effectiveAddress (operandsS rs1 rs2 imm s), .one)
  | .ebreak => none
  | .inv => none

/-- The byte count of a width (20_memory.md R40). -/
def Width.bytes : Width → Nat
  | .one => 1
  | .two => 2
  | .four => 4

/-- The state without what a tracer has recorded. -/
def State.untraced (s : State) : State := { s with trace := none }

/-- An answer without what a tracer has recorded. -/
def untracedResult : Result → Result
  | .next t => .next t.untraced
  | .fault f => .fault f
  | .refused r => .refused r

/-- The word the fetch at `pc` reads (20_memory.md R54). -/
def State.fetched (s : State) : Word := memRead s.mem s.pc .four

/-- A run that has reached its defined end, the only final state (60_exceptions.md R198). -/
def State.Final (s : State) : Prop := ∃ p v, s.run = .halted p v

/-- `k` steps from `s` end in `t`. -/
def RunsTo : Nat → State → State → Prop
  | 0, s, t => t = s
  | k + 1, s, t => ∃ u, step s = .next u ∧ RunsTo k u t

/-- A safe run: it neither faults nor is aborted by an invalid instruction, however far it goes (60_exceptions.md
R199; 20_memory.md R50). -/
def SafeRun (s : State) : Prop := ∀ k, ∃ t, RunsTo k s t ∧ ∀ p, t.run ≠ .aborted p

end Sys2Proof.Machine
end

