-- ==== Sys2Proof/Certificates/Slice0/Obligations.lean ====
section
/-! DEFINITION. The statements for the provers. Each docstring names the rule of spec/ the statement formalises; what the
spec marks as its own decision or derivation, or the model chose, is said there. -/

open Sys2Proof Sys2Proof.Machine

/-! ### Results, completion and encoding of each instruction

The masks and matches are those of each rule's Encoding line; that their literal bits are the standard ones is the
spec's own decision D2 (30_encoding.md R76; log 12). -/

/-- 41_integer_compute.md R120. `addi` answers a next state for all operands: `x[rd] <- src1 + sext_12(imm)` modulo
2^32, `dnpc` stays `snpc`, no event, nothing else changes; and the words of its mask and match decode to it with the
fields of format I. -/
def Obligations.AddiWritesSum : Prop :=
  (∀ w : Word, w &&& 0x0000707F#32 = 0x00000013#32 →
    decode w = .addi (w.extractLsb' 7 5) (w.extractLsb' 15 5) (w.extractLsb' 20 12)) ∧
  ∀ (rd rs1 : RegIdx) (imm : BitVec 12) (s : State), ∃ t, exec (.addi rd rs1 imm) s = .next t ∧
    WritesOnly s t rd (s.x rs1 + imm.signExtend 32) ∧
    t.dnpc = s.snpc ∧ NoEvent s t ∧ SameMemory s t ∧ SameAround s t

/-- 41_integer_compute.md R121. `seqz` answers a next state for all operands: `x[rd] <- (src1 <u 1) ? 1 : 0`, which is
the zero-equality test, and only words whose immediate is pinned to 1 decode to it. -/
def Obligations.SeqzWritesZeroTest : Prop :=
  (∀ w : Word, w &&& 0xFFF0707F#32 = 0x00103013#32 →
    decode w = .seqz (w.extractLsb' 7 5) (w.extractLsb' 15 5)) ∧
  (∀ (w : Word) (rd rs1 : RegIdx), decode w = .seqz rd rs1 → w.extractLsb' 20 12 = 1#12) ∧
  ∀ (rd rs1 : RegIdx) (s : State), ∃ t, exec (.seqz rd rs1) s = .next t ∧
    WritesOnly s t rd (if (s.x rs1).toNat < 1 then 1#32 else 0#32) ∧
    WritesOnly s t rd (if s.x rs1 = 0#32 then 1#32 else 0#32) ∧
    t.dnpc = s.snpc ∧ NoEvent s t ∧ SameMemory s t ∧ SameAround s t

/-- 41_integer_compute.md R122. `srl` answers a next state for all operands: the unsigned value of `src1` divided by 2
to the low five bits of `src2`, bits 31 to 5 of `src2` ignored. -/
def Obligations.SrlShiftsByLowFiveBits : Prop :=
  (∀ w : Word, w &&& 0xFE00707F#32 = 0x00005033#32 →
    decode w = .srl (w.extractLsb' 7 5) (w.extractLsb' 15 5) (w.extractLsb' 20 5)) ∧
  ∀ (rd rs1 rs2 : RegIdx) (s : State), ∃ t, exec (.srl rd rs1 rs2) s = .next t ∧
    WritesOnly s t rd (BitVec.ofNat 32 ((s.x rs1).toNat / 2 ^ ((s.x rs2).toNat % 32))) ∧
    t.dnpc = s.snpc ∧ NoEvent s t ∧ SameMemory s t ∧ SameAround s t

/-- 41_integer_compute.md R123. `auipc` answers a next state for all operands: `x[rd] <- pc + imm`, the immediate in
bits 31 to 12 with 12 zeros below, `pc` the address of this instruction. -/
def Obligations.AuipcAddsUpperImmediate : Prop :=
  (∀ w : Word, w &&& 0x0000007F#32 = 0x00000017#32 →
    decode w = .auipc (w.extractLsb' 7 5) (w.extractLsb' 12 20)) ∧
  ∀ (rd : RegIdx) (imm : BitVec 20) (s : State), ∃ t, exec (.auipc rd imm) s = .next t ∧
    WritesOnly s t rd (s.pc + BitVec.ofNat 32 (imm.toNat * 4096)) ∧
    t.dnpc = s.snpc ∧ NoEvent s t ∧ SameMemory s t ∧ SameAround s t

/-- 42_loads_stores.md R140. `lw` answers a next state whenever the memory collaborator accepts the request:
`x[rd] <- MemRead(src1 + imm, 4)`, the value read unchanged. -/
def Obligations.LwLoadsWord : Prop :=
  (∀ w : Word, w &&& 0x0000707F#32 = 0x00002003#32 →
    decode w = .lw (w.extractLsb' 7 5) (w.extractLsb' 15 5) (w.extractLsb' 20 12)) ∧
  ∀ (rd rs1 : RegIdx) (imm : BitVec 12) (s : State),
    s.memValid (s.x rs1 + imm.signExtend 32) .four = true →
    ∃ t, exec (.lw rd rs1 imm) s = .next t ∧
      WritesOnly s t rd (memRead s.mem (s.x rs1 + imm.signExtend 32) .four) ∧
      t.dnpc = s.snpc ∧ NoEvent s t ∧ SameMemory s t ∧ SameAround s t

/-- 42_loads_stores.md R141. `lbu` answers a next state whenever the memory collaborator accepts the request: the byte
becomes bits 7 to 0 and bits 31 to 8 are zero. -/
def Obligations.LbuLoadsZeroExtendedByte : Prop :=
  (∀ w : Word, w &&& 0x0000707F#32 = 0x00004003#32 →
    decode w = .lbu (w.extractLsb' 7 5) (w.extractLsb' 15 5) (w.extractLsb' 20 12)) ∧
  ∀ (rd rs1 : RegIdx) (imm : BitVec 12) (s : State),
    s.memValid (s.x rs1 + imm.signExtend 32) .one = true →
    ∃ t, exec (.lbu rd rs1 imm) s = .next t ∧
      WritesOnly s t rd (BitVec.ofNat 32 (s.mem.byteAt (s.x rs1 + imm.signExtend 32)).toNat) ∧
      t.dnpc = s.snpc ∧ NoEvent s t ∧ SameMemory s t ∧ SameAround s t

/-- 42_loads_stores.md R142. `sw` answers a next state whenever the memory collaborator accepts the request:
`MemWrite(src1 + imm, 4, src2)` and no register written; every byte outside the four stored reads as before. -/
def Obligations.SwStoresWord : Prop :=
  (∀ w : Word, w &&& 0x0000707F#32 = 0x00002023#32 →
    decode w = .sw (w.extractLsb' 15 5) (w.extractLsb' 20 5) (immSField w)) ∧
  ∀ (rs1 rs2 : RegIdx) (imm : BitVec 12) (s : State),
    s.memValid (s.x rs1 + imm.signExtend 32) .four = true →
    ∃ t, exec (.sw rs1 rs2 imm) s = .next t ∧
      t.mem = memWrite s.mem (s.x rs1 + imm.signExtend 32) .four (s.x rs2) ∧
      memRead t.mem (s.x rs1 + imm.signExtend 32) .four = s.x rs2 ∧
      SameMemoryOutside s t (s.x rs1 + imm.signExtend 32) 4 ∧
      WritesNoRegister s t ∧ t.dnpc = s.snpc ∧ NoEvent s t ∧ SameAround s t

/-- 42_loads_stores.md R143 with the spec's own decision D7 (20_memory.md R44): `sb` answers a next state whenever the
memory collaborator accepts the request; the byte stored is `src2[7:0]` and only one byte of memory changes. -/
def Obligations.SbStoresLowByte : Prop :=
  (∀ w : Word, w &&& 0x0000707F#32 = 0x00000023#32 →
    decode w = .sb (w.extractLsb' 15 5) (w.extractLsb' 20 5) (immSField w)) ∧
  ∀ (rs1 rs2 : RegIdx) (imm : BitVec 12) (s : State),
    s.memValid (s.x rs1 + imm.signExtend 32) .one = true →
    ∃ t, exec (.sb rs1 rs2 imm) s = .next t ∧
      t.mem.byteAt (s.x rs1 + imm.signExtend 32) = (s.x rs2).extractLsb' 0 8 ∧
      SameMemoryOutside s t (s.x rs1 + imm.signExtend 32) 1 ∧
      WritesNoRegister s t ∧ t.dnpc = s.snpc ∧ NoEvent s t ∧ SameAround s t

/-- 43_control_transfer.md R160. `jal` answers a next state for all operands: the link value `pc + 4` in `rd`, and
`dnpc <- pc + off`, where `off` is twice the signed halfword count: an even number of bytes. -/
def Obligations.JalLinksAndJumps : Prop :=
  (∀ w : Word, w &&& 0x0000007F#32 = 0x0000006F#32 → decode w = .jal (w.extractLsb' 7 5) (immJField w)) ∧
  ∀ (rd : RegIdx) (imm : BitVec 20) (s : State), ∃ t, exec (.jal rd imm) s = .next t ∧
    WritesOnly s t rd (s.pc + 4#32) ∧ t.dnpc = s.pc + BitVec.ofInt 32 (2 * imm.toInt) ∧
    NoEvent s t ∧ SameMemory s t ∧ SameAround s t

/-- 43_control_transfer.md R161. `jalr` answers a next state for all operands: the link value `pc + 4` in `rd`, and
`dnpc <- src1 + imm` from the old `src1`, bit 0 as computed; every word of its pattern but `0x00008067` decodes to it. -/
def Obligations.JalrLinksAndKeepsBitZero : Prop :=
  (∀ w : Word, w &&& 0x0000707F#32 = 0x00000067#32 → w ≠ 0x00008067#32 →
    decode w = .jalr (w.extractLsb' 7 5) (w.extractLsb' 15 5) (w.extractLsb' 20 12)) ∧
  ∀ (rd rs1 : RegIdx) (imm : BitVec 12) (s : State), ∃ t, exec (.jalr rd rs1 imm) s = .next t ∧
    WritesOnly s t rd (s.pc + 4#32) ∧ t.dnpc = s.x rs1 + imm.signExtend 32 ∧
    t.dnpc.getLsbD 0 = ((s.x rs1).getLsbD 0 ^^ imm.getLsbD 0) ∧
    NoEvent s t ∧ SameMemory s t ∧ SameAround s t

/-- 43_control_transfer.md R162. The one word `0x00008067` is `ret`, which answers a next state: `dnpc` is `x[1]` with
bit 0 cleared and every other bit kept, then the edge `(pc, dnpc)` is reported where a tracer is attached; no register
is written. -/
def Obligations.RetClearsBitZero : Prop :=
  (∀ w : Word, decode w = .ret ↔ w = 0x00008067#32) ∧
  ∀ s : State, ∃ t, exec .ret s = .next t ∧
    t.dnpc.getLsbD 0 = false ∧ (∀ i, 0 < i → t.dnpc.getLsbD i = (s.x 1#5).getLsbD i) ∧
    (∀ edges, s.trace = some edges → t.trace = some (edges ++ [⟨s.pc, t.dnpc⟩])) ∧
    (s.trace = none → t.trace = none) ∧
    WritesNoRegister s t ∧ t.signal = none ∧ SameMemory s t ∧ SameAround s t

/-- 43_control_transfer.md R163. `beq` answers a next state for all operands: `dnpc <- pc + imm` where all 32 bits of
the two registers agree, else `dnpc` keeps `snpc`; no register is written. -/
def Obligations.BeqBranchesOnEquality : Prop :=
  (∀ w : Word, w &&& 0x0000707F#32 = 0x00000063#32 →
    decode w = .beq (w.extractLsb' 15 5) (w.extractLsb' 20 5) (immBField w)) ∧
  ∀ (rs1 rs2 : RegIdx) (imm : BitVec 13) (s : State), ∃ t, exec (.beq rs1 rs2 imm) s = .next t ∧
    ((∀ i, i < 32 → (s.x rs1).getLsbD i = (s.x rs2).getLsbD i) → t.dnpc = s.pc + imm.signExtend 32) ∧
    ((∃ i, i < 32 ∧ (s.x rs1).getLsbD i ≠ (s.x rs2).getLsbD i) → t.dnpc = s.snpc) ∧
    WritesNoRegister s t ∧ NoEvent s t ∧ SameMemory s t ∧ SameAround s t

/-- 44_system.md R180. The one word `0x00100073` is `ebreak`, which answers a next state: it raises
`Trap(pc, x[10])`, `dnpc` stays `snpc`, and no register and no memory byte is written. -/
def Obligations.EbreakRaisesTrap : Prop :=
  (∀ w : Word, decode w = .ebreak ↔ w = 0x00100073#32) ∧
  ∀ s : State, ∃ t, exec .ebreak s = .next t ∧ t.signal = some (.trap s.pc (s.x 10#5)) ∧
    t.dnpc = s.snpc ∧ t.trace = s.trace ∧ WritesNoRegister s t ∧ SameMemory s t ∧ SameAround s t

/-- 44_system.md R181. Every word that none of entries 0 to 12 matches is `inv`, which answers a next state: it raises
`InvalidInstruction(pc)`, `dnpc` stays `snpc`, and no register and no memory byte is written. -/
def Obligations.InvRaisesInvalidInstruction : Prop :=
  (∀ w : Word, decode w = .inv ↔ ∀ e ∈ table.take 13, e.selects w = false) ∧
  ∀ s : State, ∃ t, exec .inv s = .next t ∧ t.signal = some (.invalidInstruction s.pc) ∧
    t.dnpc = s.snpc ∧ t.trace = s.trace ∧ WritesNoRegister s t ∧ SameMemory s t ∧ SameAround s t

/-! ### What holds of every instruction -/

/-- The frame of every instruction that answers a next state (10_state.md R23, R24, R25; 20_memory.md R41): `pc`, `snpc`,
`MEM_VALID` and the driver's outcome are unchanged; every register but x0 and the destination is unchanged; a store
changes no byte outside those of its request, whose address the meaning computes, and every other form changes no byte;
only `ret` reports an edge. -/
def Obligations.InstructionFrame : Prop :=
  ∀ (i : Instr) (s t : State), exec i s = .next t →
    SameAround s t ∧
    (∀ r, r ≠ 0#5 → destinationRegister i ≠ some r → t.x r = s.x r) ∧
    (∀ a n, storeRequest i s = some (a, n) → SameMemoryOutside s t a n.bytes) ∧
    (storeRequest i s = none → SameMemory s t) ∧
    (i ≠ .ret → t.trace = s.trace)

/-- 10_state.md R21. x0 reads 0 after every execute cycle, even if the action wrote index 0; index 0 is not special on
the way: a write to it is a real write, and a read of it is an ordinary read of what is stored. -/
def Obligations.RegisterZeroReadsZero : Prop :=
  (∀ (i : Instr) (s t : State), exec i s = .next t → t.x 0#5 = 0#32) ∧
  ∀ (s : State) (v : Word), (s.setX 0#5 v).x 0#5 = v ∧
    ∀ (rd : RegIdx) (imm : BitVec 12), ∃ t, exec (.addi rd 0#5 imm) (s.setX 0#5 v) = .next t ∧
      WritesOnly s t rd (v + imm.signExtend 32)

/-- 10_state.md R26. `dnpc` starts as `snpc`; only `jal`, `jalr`, `ret` and a taken `beq` overwrite it, whatever `snpc`
was; for every other entry, `ebreak` and `inv` included, it is `snpc`, which is `pc + 4`, when the step ends. -/
def Obligations.OnlyTransfersDecideNextPc : Prop :=
  ∀ (i : Instr) (s t : State), exec i s = .next t →
    (decidesNextPc i s = false → t.dnpc = s.snpc ∧ (s.snpc = s.pc + 4#32 → t.dnpc = s.pc + 4#32)) ∧
    (decidesNextPc i s = true → ∀ v : Word, ∃ t', exec i { s with snpc := v } = .next t' ∧ t'.dnpc = t.dnpc)

/-- 60_exceptions.md R190. Exactly two events: `ebreak` raises `Trap(pc, x[10])`, `inv` raises
`InvalidInstruction(pc)`, and no other instruction raises anything. -/
def Obligations.OnlyTwoEventsExist : Prop :=
  ∀ (i : Instr) (s t : State), exec i s = .next t → ∀ e, t.signal = some e ↔
    (i = .ebreak ∧ e = .trap s.pc (s.x 10#5)) ∨ (i = .inv ∧ e = .invalidInstruction s.pc)

/-- 60_exceptions.md R194. Both events are precise: the signalling instruction has changed no register and no memory
byte, the `pc` carried is its own address, and the step still returns `dnpc = pc + 4`. -/
def Obligations.EventsArePrecise : Prop :=
  ∀ (i : Instr) (s t : State) (e : Signal), s.snpc = s.pc + 4#32 → s.x 0#5 = 0#32 → exec i s = .next t →
    t.signal = some e →
    t.regs = s.regs ∧ t.mem = s.mem ∧ t.pc = s.pc ∧ t.dnpc = s.pc + 4#32 ∧
    ((∃ v, e = .trap s.pc v) ∨ e = .invalidInstruction s.pc)

/-- 10_state.md R23. What an instruction writes depends on no register but those the table lists as read, and it writes
no register but the one listed (and x0, which every step zeroes): two states that agree on the listed sources and on
everything but registers give the same answer in all but the registers not written. -/
def Obligations.RegistersReadAndWritten : Prop :=
  ∀ (i : Instr) (s s' t : State), (∀ r ∈ sourceRegisters i, s'.x r = s.x r) →
    s' = { s with regs := s'.regs } → exec i s = .next t →
    ∃ t', exec i s' = .next t' ∧ t' = { t with regs := t'.regs } ∧
      (∀ rd, destinationRegister i = some rd → t'.x rd = t.x rd) ∧
      t'.x 0#5 = 0#32 ∧ t.x 0#5 = 0#32 ∧
      ∀ r, r ≠ 0#5 → destinationRegister i ≠ some r → t'.x r = s'.x r ∧ t.x r = s.x r

/-- 60_exceptions.md R205. Only `ret` reports to the tracer, with `dnpc` already masked; with no tracer attached the
notification is dropped. -/
def Obligations.OnlyReturnsAreTraced : Prop :=
  ∀ (i : Instr) (s t : State), exec i s = .next t →
    (s.trace = none → t.trace = none) ∧
    ∀ edges, s.trace = some edges →
      (i = .ret → t.trace = some (edges ++ [⟨s.pc, s.x 1#5 &&& 0xFFFFFFFE#32⟩]) ∧
        t.dnpc = s.x 1#5 &&& 0xFFFFFFFE#32) ∧
      (i ≠ .ret → t.trace = some edges)

/-- 60_exceptions.md R205, 10_state.md R36. The tracer's absence or presence never affects architectural correctness:
a step with any tracer gives the same answer, the tracer's own record apart. -/
def Obligations.TracerChangesNothing : Prop :=
  ∀ (s : State) (trace : Option (List CallEdge)),
    untracedResult (step { s with trace := trace }) = untracedResult (step s)

/-- 20_memory.md R50 and 60_exceptions.md R190, with the spec's decision D27: the only stop of an instruction is the
memory collaborator's refusal of its own load or store request; no instruction is refused. -/
def Obligations.OnlyRefusedMemoryStops : Prop :=
  (∀ (i : Instr) (s : State) (f : Fault), exec i s = .fault f →
    ∃ a n, f = .memoryRefused s.pc a n ∧ s.memValid a n = false ∧
      ((∃ rd rs1 imm, i = .lw rd rs1 imm ∧ a = s.x rs1 + imm.signExtend 32 ∧ n = .four) ∨
       (∃ rd rs1 imm, i = .lbu rd rs1 imm ∧ a = s.x rs1 + imm.signExtend 32 ∧ n = .one) ∨
       (∃ rs1 rs2 imm, i = .sw rs1 rs2 imm ∧ a = s.x rs1 + imm.signExtend 32 ∧ n = .four) ∨
       (∃ rs1 rs2 imm, i = .sb rs1 rs2 imm ∧ a = s.x rs1 + imm.signExtend 32 ∧ n = .one))) ∧
  ∀ (i : Instr) (s : State) (r : Refusal), exec i s ≠ .refused r

/-- 20_memory.md R50 with the spec's decision D27: a refused load, store or fetch ends the step as
`MemoryRefused(pc, addr, n)`, whatever register a load would write. -/
def Obligations.RefusedAccessFaults : Prop :=
  (∀ (rd rs1 : RegIdx) (imm : BitVec 12) (s : State),
    s.memValid (s.x rs1 + imm.signExtend 32) .four = false →
    exec (.lw rd rs1 imm) s = .fault (.memoryRefused s.pc (s.x rs1 + imm.signExtend 32) .four)) ∧
  (∀ (rd rs1 : RegIdx) (imm : BitVec 12) (s : State),
    s.memValid (s.x rs1 + imm.signExtend 32) .one = false →
    exec (.lbu rd rs1 imm) s = .fault (.memoryRefused s.pc (s.x rs1 + imm.signExtend 32) .one)) ∧
  (∀ (rs1 rs2 : RegIdx) (imm : BitVec 12) (s : State),
    s.memValid (s.x rs1 + imm.signExtend 32) .four = false →
    exec (.sw rs1 rs2 imm) s = .fault (.memoryRefused s.pc (s.x rs1 + imm.signExtend 32) .four)) ∧
  (∀ (rs1 rs2 : RegIdx) (imm : BitVec 12) (s : State),
    s.memValid (s.x rs1 + imm.signExtend 32) .one = false →
    exec (.sb rs1 rs2 imm) s = .fault (.memoryRefused s.pc (s.x rs1 + imm.signExtend 32) .one)) ∧
  ∀ s : State, s.run = .running → s.memValid s.pc .four = false →
    step s = .fault (.memoryRefused s.pc s.pc .four)

/-! ### Templates, table, decoder and encoder -/

/-- 30_encoding.md R62. Matching a 32-character template is agreement with its literal characters, bit 31 first; it is
the same as `(word & mask) == match` for the pair the template compiles to; flipping wildcard-position bits of the word
never changes the result. -/
def Obligations.TemplateIsMaskAndMatch : Prop :=
  ∀ (bits : List TemplateBit) (w : Word), bits.length = 32 →
    (templateMatches bits w = true ↔ ∀ i, i < 32 →
      (bits[31 - i]? = some .zero → w.getLsbD i = false) ∧ (bits[31 - i]? = some .one → w.getLsbD i = true)) ∧
    templateMatches bits w = ((w &&& templateMask bits) == templateValue bits) ∧
    (∀ i, i < 32 → ((templateMask bits).getLsbD i = true ↔ bits[31 - i]? ≠ some .any) ∧
      ((templateValue bits).getLsbD i = true ↔ bits[31 - i]? = some .one)) ∧
    ∀ w' : Word, (∀ i, i < 32 → bits[31 - i]? ≠ some .any → w'.getLsbD i = w.getLsbD i) →
      templateMatches bits w' = templateMatches bits w

/-- 30_encoding.md R61, R64, R76. Every template of the table resolves to 32 characters and compiles to the entry's mask
and match; the last entry is all wildcards. The literal bits are the spec's decision D2. -/
def Obligations.TableIsWellFormed : Prop :=
  (∀ e ∈ table, ∃ bits, parseTemplate e.template = some bits ∧ bits.length = 32 ∧
    templateMask bits = e.mask ∧ templateValue bits = e.value) ∧
  table.length = 14 ∧
  ∃ e, table.getLast? = some e ∧ e.mnemonic = "inv" ∧ parseTemplate e.template = some (List.replicate 32 .any)

/-- 30_encoding.md R63. Entries are tested in declaration order and the first matching entry is selected, even if a later
entry would also match. -/
def Obligations.FirstMatchWins : Prop :=
  ∀ (w : Word) (k : Nat) (hk : k < table.length), table[k].selects w = true →
    (∀ j (hj : j < k), (table[j]'(Nat.lt_trans hj hk)).selects w = false) → decode w = table[k].build w

/-- 30_encoding.md R84 (derived there). The only overlaps: every word matches the catch-all, and `0x00008067`, which is
all that `ret` matches, also matches `jalr`. -/
def Obligations.OnlyRetAndCatchAllOverlap : Prop :=
  (∀ (w : Word) (i j : Nat) (hi : i < table.length) (hj : j < table.length), i < j →
    table[i].selects w = true → table[j].selects w = true → (i = 6 ∧ j = 7 ∧ w = 0x00008067#32) ∨ j = 13) ∧
  ∀ (w : Word) (h6 : 6 < table.length) (h7 : 7 < table.length) (h13 : 13 < table.length),
    table[13].selects w = true ∧ (table[6].selects w = true → table[7].selects w = true)

/-- 30_encoding.md R84 (derived there). Any permutation of the table that keeps `ret` before `jalr` and the catch-all
last decodes every word identically. -/
def Obligations.OtherOrderIsUnobservable : Prop :=
  ∀ (h6 : 6 < table.length) (h7 : 7 < table.length) (h13 : 13 < table.length) (a b c : List Entry),
    (a ++ table[6] :: (b ++ table[7] :: (c ++ [table[13]]))).Perm table →
    ∀ w : Word, ∃ e,
      (a ++ table[6] :: (b ++ table[7] :: (c ++ [table[13]]))).find? (fun e => e.selects w) = some e ∧
      e.build w = decode w

/-- 30_encoding.md R78 (its table, derived there). The words taken by an entry before the catch-all are exactly those of
the field conditions. -/
def Obligations.InvalidWordsByField : Prop := ∀ w : Word, decode w = .inv ↔ validWord w = false

/-- 30_encoding.md R68 to R74. For every word, the operands the format-aware decoder builds with the spec's shifts and ors
are those of the decoded instruction, its immediate sign-extended from its own width. -/
def Obligations.OperandDecoderAgrees : Prop :=
  ∀ (w : Word) (s : State), decodeOperands (decode w).format w s = instrOperands (decode w) s

/-- 30_encoding.md R81 (derived there). Decoding the encoded word of any well-formed instruction gives it back, with every
operand at every value the encoding admits. -/
def Obligations.DecodeInvertsEncode : Prop := ∀ i : Instr, i.wellFormed = true → decode (encode i) = i

/-- 30_encoding.md R78, R81 (derived there). What the decoder gives is well-formed, and encoding it gives the word back
for every word that is not the catch-all's: no bit of a valid word is dropped. -/
def Obligations.EncodeInvertsDecode : Prop :=
  ∀ w : Word, (decode w).wellFormed = true ∧ (decode w ≠ .inv → encode (decode w) = w)

/-- 95_test_vectors.md V1, V2 and 30_encoding.md R68 to R74: words written out from the encoding decode to the
instructions they stand for, one of each family and format. -/
def Obligations.SpecWordsDecode : Prop :=
  decode 0x00500093#32 = .addi 1 0 5 ∧ decode 0x00133293#32 = .seqz 5 6 ∧ decode 0x007352B3#32 = .srl 5 6 7 ∧
  decode 0x80000297#32 = .auipc 5 0x80000 ∧ decode 0xFFC12283#32 = .lw 5 2 (-4) ∧
  decode 0x7FF14283#32 = .lbu 5 2 2047 ∧ decode 0x80532023#32 = .sw 6 5 (-2048) ∧
  decode 0xFE530FA3#32 = .sb 6 5 (-1) ∧ decode 0xFFDFF06F#32 = .jal 0 (-2) ∧
  decode 0x00C28367#32 = .jalr 6 5 12 ∧ decode 0x00008067#32 = .ret ∧ decode 0xFE208FE3#32 = .beq 1 2 (-2) ∧
  decode 0x00100073#32 = .ebreak ∧ decode 0xFFFFFFFF#32 = .inv ∧ decode 0x00000000#32 = .inv

/-- 43_control_transfer.md R169 and 42_loads_stores.md R145 (derived there): the words of the boundary offsets, both ways. -/
def Obligations.BoundaryOffsetsRoundTrip : Prop :=
  (encode (.jal 1 0x7FFFF) = 0x7FFFF0EF#32 ∧ immJField 0x7FFFF0EF#32 = 0x7FFFF#20) ∧
  (encode (.jal 1 0x80000) = 0x800000EF#32 ∧ immJField 0x800000EF#32 = 0x80000#20) ∧
  (encode (.jal 1 0x400) = 0x001000EF#32 ∧ immJField 0x001000EF#32 = 0x400#20) ∧
  (encode (.beq 0 0 0x0FFE) = 0x7E000FE3#32 ∧ immBField 0x7E000FE3#32 = 0x0FFE#13) ∧
  (encode (.beq 0 0 0x1000) = 0x80000063#32 ∧ immBField 0x80000063#32 = 0x1000#13) ∧
  (encode (.sw 6 5 0x7FF) = 0x7E532FA3#32 ∧ immSField 0x7E532FA3#32 = 0x7FF#12) ∧
  (encode (.sw 6 5 0x800) = 0x80532023#32 ∧ immSField 0x80532023#32 = 0x800#12) ∧
  (encode (.sb 8 7 31) = 0x00740FA3#32 ∧ immSField 0x00740FA3#32 = 31#12) ∧
  (encode (.sb 8 7 32) = 0x02740023#32 ∧ immSField 0x02740023#32 = 32#12)

/-! ### Memory -/

/-- 20_memory.md R52, R53 (reference memory, decisions D5, D6, D22): a read returns the bytes last written, for every
width and every address, aligned or not and at the top of the address space; a write changes no other byte. -/
def Obligations.ReadReturnsLastWritten : Prop :=
  ∀ (m : Memory) (a v : Word),
    memRead (memWrite m a .four v) a .four = v ∧
    memRead (memWrite m a .two v) a .two = v &&& 0x0000FFFF#32 ∧
    memRead (memWrite m a .one v) a .one = v &&& 0x000000FF#32 ∧
    ∀ (n : Width) (b : Word), (∀ k, k < n.bytes → b ≠ a + BitVec.ofNat 32 k) →
      (memWrite m a n v).byteAt b = m.byteAt b

/-- 20_memory.md R45, R48 (decisions D3, D22): the reference memory is little-endian, byte `k` of an access at
`addr + k` modulo 2^32. -/
def Obligations.MemoryIsLittleEndian : Prop :=
  ∀ (m : Memory) (a v : Word) (k : Nat),
    (k < 4 → (memWrite m a .four v).byteAt (a + BitVec.ofNat 32 k) = v.extractLsb' (8 * k) 8 ∧
      (memRead m a .four).extractLsb' (8 * k) 8 = m.byteAt (a + BitVec.ofNat 32 k)) ∧
    (k < 2 → (memWrite m a .two v).byteAt (a + BitVec.ofNat 32 k) = v.extractLsb' (8 * k) 8 ∧
      (memRead m a .two).extractLsb' (8 * k) 8 = m.byteAt (a + BitVec.ofNat 32 k))

/-- 20_memory.md R46 (derived there from decisions D3 and D7): what a mixed-width access sees, at every address. -/
def Obligations.MixedWidthAccesses : Prop :=
  ∀ (m : Memory) (a v : Word), v.extractLsb' 0 8 = 0x11#8 →
    memRead (memWrite m a .four 0xAABBCCDD#32) a .one = 0xDD#32 ∧
    memRead (memWrite m a .four 0xAABBCCDD#32) (a + 1#32) .one = 0xCC#32 ∧
    memRead (memWrite m a .four 0xAABBCCDD#32) (a + 2#32) .one = 0xBB#32 ∧
    memRead (memWrite m a .four 0xAABBCCDD#32) (a + 3#32) .one = 0xAA#32 ∧
    memRead (memWrite (memWrite m a .four 0xAABBCCDD#32) (a + 1#32) .one v) a .four = 0xAABB11DD#32

/-! ### The step, the driver, reset and launch -/

/-- 40_execute_cycle.md R111 and 20_memory.md R54 (decisions D9, D10): a step runs the instruction that the four bytes
at `pc` decode to, with `snpc = pc + 4` presented, and then the driver stops on a signal (decisions D14, D15) or copies
`dnpc` to `pc`. Two things in the stopping arms are the model's choice: `pc` stays at the signalling instruction (log 7;
R224 leaves it open), and `Aborted` is recorded in a next state where R199 calls it a fault (log 8). -/
def Obligations.StepRunsDecodedInstruction : Prop :=
  ∀ (s : State) (i : Instr), s.run = .running → s.memValid s.pc .four = true →
    decodeBytes [s.mem.byteAt s.pc, s.mem.byteAt (s.pc + 1#32), s.mem.byteAt (s.pc + 2#32),
      s.mem.byteAt (s.pc + 3#32)] = .ok (i, []) →
    step s =
      match exec i { s with snpc := s.pc + 4#32 } with
      | .next t =>
        match t.signal with
        | none => .next { t with pc := t.dnpc }
        | some (.trap p v) => .next { t with run := .halted p v, signal := none }
        | some (.invalidInstruction p) => .next { t with run := .aborted p, signal := none }
      | .fault f => .fault f
      | .refused r => .refused r

/-- 43_control_transfer.md R165 (derived there) with 10_state.md R27 (decision D10): the `dnpc` of every table entry, and
what the reference driver does with it: the next `pc` of a run that goes on. That `pc` stays where the run has ended is
the model's choice (log 7; 70_reset_and_hazards.md R224 leaves it open), and that an aborting step answers a next state
at all is log 8. -/
def Obligations.NextPcOfEveryEntry : Prop :=
  ∀ (s t : State), s.run = .running → step s = .next t →
    t.dnpc =
      (match decode s.fetched with
      | .jal _ imm => s.pc + BitVec.ofInt 32 (2 * imm.toInt)
      | .jalr _ rs1 imm => s.x rs1 + imm.signExtend 32
      | .ret => s.x 1#5 &&& 0xFFFFFFFE#32
      | .beq rs1 rs2 imm => if s.x rs1 = s.x rs2 then s.pc + imm.signExtend 32 else s.pc + 4#32
      | .lw _ _ _ => s.pc + 4#32
      | .addi _ _ _ => s.pc + 4#32
      | .seqz _ _ => s.pc + 4#32
      | .sw _ _ _ => s.pc + 4#32
      | .srl _ _ _ => s.pc + 4#32
      | .auipc _ _ => s.pc + 4#32
      | .lbu _ _ _ => s.pc + 4#32
      | .sb _ _ _ => s.pc + 4#32
      | .ebreak => s.pc + 4#32
      | .inv => s.pc + 4#32) ∧
    (t.run = .running → t.pc = t.dnpc) ∧ (t.run ≠ .running → t.pc = s.pc)

/-- 60_exceptions.md R198 (decision D14): a step on `ebreak` ends the run as `Halted(pc, x[10])` with registers and
memory as they are; the halted state is final. That it stays, with `pc` at the `ebreak`, is the model's choice (log 7). -/
def Obligations.EbreakHaltsTheRun : Prop :=
  ∀ s : State, s.run = .running → s.memValid s.pc .four = true → s.fetched = 0x00100073#32 →
    ∃ t, step s = .next t ∧ t.run = .halted s.pc (s.x 10#5) ∧ t.signal = none ∧ t.pc = s.pc ∧
      t.dnpc = s.pc + 4#32 ∧ WritesNoRegister s t ∧ SameMemory s t ∧ t.Final ∧ ∀ k, RunsTo k t t

/-- 60_exceptions.md R199 (decision D15): a step on an invalid word aborts the run as `Aborted(pc)` with registers and
memory as they are; the state is never final. That it is a next state whose further step is the fault (log 8), with `pc` at
the invalid word (log 7), is the model's choice. -/
def Obligations.InvalidWordAbortsTheRun : Prop :=
  ∀ s : State, s.run = .running → s.memValid s.pc .four = true → validWord s.fetched = false →
    ∃ t, step s = .next t ∧ t.run = .aborted s.pc ∧ t.signal = none ∧ t.pc = s.pc ∧
      t.dnpc = s.pc + 4#32 ∧ WritesNoRegister s t ∧ SameMemory s t ∧ ¬ t.Final ∧
      step t = .fault (.runAborted s.pc)

/-- 20_memory.md R54 and 70_reset_and_hazards.md R227 (decision D9): a store to the very next instruction is seen by its
fetch, with nothing in between. What the driver does if the stored word signals keeps `pc` (log 7) and records `Aborted`
in a next state (log 8), the model's choices. -/
def Obligations.FetchSeesThePrecedingStore : Prop :=
  ∀ (s : State) (rs1 rs2 : RegIdx) (imm : BitVec 12), s.run = .running → s.refused = [] →
    decode s.fetched = .sw rs1 rs2 imm → s.x rs1 + imm.signExtend 32 = s.pc + 4#32 →
    ∃ t, step s = .next t ∧ t.run = .running ∧ t.pc = s.pc + 4#32 ∧ t.fetched = s.x rs2 ∧
      step t = drive (exec (decode (s.x rs2)) { t with snpc := t.pc + 4#32 })

/-- 70_reset_and_hazards.md R231 (derived there): with every access accepted a running machine always has a step. On an
invalid word that step is a next state, with `Aborted` recorded in it, by the model's choice (log 8; 60_exceptions.md R199
calls the outcome a fault). -/
def Obligations.RunningMachineIsNeverStuck : Prop :=
  ∀ s : State, s.run = .running → s.refused = [] → ∃ t, step s = .next t ∧ t.refused = []

/-- The launch parameters are fixed for a run (00_scope.md R9): no step changes `MEM_VALID`, attaches or removes a
tracer, or takes a reported edge back; at most one edge is reported per step (10_state.md R37, derived there). -/
def Obligations.LaunchParametersStayFixed : Prop :=
  ∀ s t : State, step s = .next t →
    t.refused = s.refused ∧ (s.trace = none → t.trace = none) ∧
    ∀ edges, s.trace = some edges → ∃ more, t.trace = some (edges ++ more) ∧ more.length ≤ 1

/-- Placing an instruction's bits where the next fetch reads makes the very next step run it, from every state
(70_reset_and_hazards.md R223; log 13, the model's convention for loading). What the driver does on a signal keeps `pc`
(log 7) and records `Aborted` in a next state (log 8), the model's choices. -/
def Obligations.PlacedWordRunsNext : Prop :=
  ∀ (s : State) (nbits w : Nat) (i : Instr), decodeTableWord nbits w = some i →
    step (s.withFetchWord nbits w) = drive (exec i { s.withFetchWord nbits w with snpc := s.pc + 4#32 })

/-- The invariant is kept by every step from every state that has it: memory canonical, x0 zero (10_state.md R21), no
signal pending (70_reset_and_hazards.md R221), a recorded outcome naming the instruction at `pc` and the value of `a0`
(60_exceptions.md R191, R192), reported return targets even (43_control_transfer.md R162). -/
def Obligations.StepKeepsInv : Prop := ∀ s t : State, s.Inv → step s = .next t → t.Inv

/-- The reset state has the invariant. -/
def Obligations.ResetHasInv : Prop := State.reset.Inv

/-- So has every state a host can start a run from, whatever the launch parameters, memory bytes listed in any order and
any number of times (70_reset_and_hazards.md R221, R223). -/
def Obligations.LaunchHasInv : Prop :=
  ∀ (resetPc : Word) (initX : Vector Word 32) (initMem : List Host.Cell) (refused : List RefusedAccess) (trace : Bool),
    (State.launch resetPc initX initMem refused trace).Inv

/-- What reset leaves (70_reset_and_hazards.md R221, R222; 00_scope.md R9): x0 zero, no pending signal, a run about to
begin, every access accepted, no tracer. The values of `pc`, x1 to x31 and memory are the model's choices (log 1 to 3),
where the spec leaves any value. -/
def Obligations.ResetState : Prop :=
  State.reset.x 0#5 = 0#32 ∧ State.reset.signal = none ∧ State.reset.run = .running ∧
  (∀ a n, State.reset.memValid a n = true) ∧ State.reset.trace = none ∧
  State.reset.pc = 0#32 ∧ (∀ r, State.reset.x r = 0#32) ∧ ∀ a, State.reset.mem.byteAt a = 0#8
end

