-- ==== Sys2Proof/Laws/State.lean ====
section
/-! SUPPORT. One lemma per field of State and per update of it, each true by unfolding once, and the reads of a register
after a write: later proofs never unfold a record update. -/

namespace Sys2Proof.Machine

/-! ### setX -/

@[simp] theorem setX_regs (s : State) (r : RegIdx) (v : Word) : (s.setX r v).regs = s.regs.set r.toNat v r.isLt := rfl
@[simp] theorem setX_pc (s : State) (r : RegIdx) (v : Word) : (s.setX r v).pc = s.pc := rfl
@[simp] theorem setX_snpc (s : State) (r : RegIdx) (v : Word) : (s.setX r v).snpc = s.snpc := rfl
@[simp] theorem setX_dnpc (s : State) (r : RegIdx) (v : Word) : (s.setX r v).dnpc = s.dnpc := rfl
@[simp] theorem setX_mem (s : State) (r : RegIdx) (v : Word) : (s.setX r v).mem = s.mem := rfl
@[simp] theorem setX_refused (s : State) (r : RegIdx) (v : Word) : (s.setX r v).refused = s.refused := rfl
@[simp] theorem setX_trace (s : State) (r : RegIdx) (v : Word) : (s.setX r v).trace = s.trace := rfl
@[simp] theorem setX_signal (s : State) (r : RegIdx) (v : Word) : (s.setX r v).signal = s.signal := rfl
@[simp] theorem setX_run (s : State) (r : RegIdx) (v : Word) : (s.setX r v).run = s.run := rfl

/-! ### setNextPc -/

@[simp] theorem setNextPc_regs (s : State) (p : Word) : (setNextPc p s).regs = s.regs := rfl
@[simp] theorem setNextPc_pc (s : State) (p : Word) : (setNextPc p s).pc = s.pc := rfl
@[simp] theorem setNextPc_snpc (s : State) (p : Word) : (setNextPc p s).snpc = s.snpc := rfl
@[simp] theorem setNextPc_dnpc (s : State) (p : Word) : (setNextPc p s).dnpc = p := rfl
@[simp] theorem setNextPc_mem (s : State) (p : Word) : (setNextPc p s).mem = s.mem := rfl
@[simp] theorem setNextPc_refused (s : State) (p : Word) : (setNextPc p s).refused = s.refused := rfl
@[simp] theorem setNextPc_trace (s : State) (p : Word) : (setNextPc p s).trace = s.trace := rfl
@[simp] theorem setNextPc_signal (s : State) (p : Word) : (setNextPc p s).signal = s.signal := rfl
@[simp] theorem setNextPc_run (s : State) (p : Word) : (setNextPc p s).run = s.run := rfl

/-! ### raiseSignal -/

@[simp] theorem raiseSignal_regs (s : State) (e : Signal) : (raiseSignal e s).regs = s.regs := rfl
@[simp] theorem raiseSignal_pc (s : State) (e : Signal) : (raiseSignal e s).pc = s.pc := rfl
@[simp] theorem raiseSignal_snpc (s : State) (e : Signal) : (raiseSignal e s).snpc = s.snpc := rfl
@[simp] theorem raiseSignal_dnpc (s : State) (e : Signal) : (raiseSignal e s).dnpc = s.dnpc := rfl
@[simp] theorem raiseSignal_mem (s : State) (e : Signal) : (raiseSignal e s).mem = s.mem := rfl
@[simp] theorem raiseSignal_refused (s : State) (e : Signal) : (raiseSignal e s).refused = s.refused := rfl
@[simp] theorem raiseSignal_trace (s : State) (e : Signal) : (raiseSignal e s).trace = s.trace := rfl
@[simp] theorem raiseSignal_signal (s : State) (e : Signal) : (raiseSignal e s).signal = some e := rfl
@[simp] theorem raiseSignal_run (s : State) (e : Signal) : (raiseSignal e s).run = s.run := rfl

/-! ### callTrace -/

@[simp] theorem callTrace_regs (s : State) (p q : Word) : (callTrace p q s).regs = s.regs := rfl
@[simp] theorem callTrace_pc (s : State) (p q : Word) : (callTrace p q s).pc = s.pc := rfl
@[simp] theorem callTrace_snpc (s : State) (p q : Word) : (callTrace p q s).snpc = s.snpc := rfl
@[simp] theorem callTrace_dnpc (s : State) (p q : Word) : (callTrace p q s).dnpc = s.dnpc := rfl
@[simp] theorem callTrace_mem (s : State) (p q : Word) : (callTrace p q s).mem = s.mem := rfl
@[simp] theorem callTrace_refused (s : State) (p q : Word) : (callTrace p q s).refused = s.refused := rfl
@[simp] theorem callTrace_trace (s : State) (p q : Word) : (callTrace p q s).trace = s.trace.map (fun edges => edges ++ [⟨p, q⟩]) := rfl
@[simp] theorem callTrace_signal (s : State) (p q : Word) : (callTrace p q s).signal = s.signal := rfl
@[simp] theorem callTrace_run (s : State) (p q : Word) : (callTrace p q s).run = s.run := rfl

/-! ### beginCycle -/

@[simp] theorem beginCycle_regs (s : State) : (beginCycle s).regs = s.regs := rfl
@[simp] theorem beginCycle_pc (s : State) : (beginCycle s).pc = s.pc := rfl
@[simp] theorem beginCycle_snpc (s : State) : (beginCycle s).snpc = s.snpc := rfl
@[simp] theorem beginCycle_dnpc (s : State) : (beginCycle s).dnpc = s.snpc := rfl
@[simp] theorem beginCycle_mem (s : State) : (beginCycle s).mem = s.mem := rfl
@[simp] theorem beginCycle_refused (s : State) : (beginCycle s).refused = s.refused := rfl
@[simp] theorem beginCycle_trace (s : State) : (beginCycle s).trace = s.trace := rfl
@[simp] theorem beginCycle_signal (s : State) : (beginCycle s).signal = none := rfl
@[simp] theorem beginCycle_run (s : State) : (beginCycle s).run = s.run := rfl

/-! ### endCycle -/

@[simp] theorem endCycle_regs (s : State) : (endCycle s).regs = s.regs.set 0 0#32 := rfl
@[simp] theorem endCycle_pc (s : State) : (endCycle s).pc = s.pc := rfl
@[simp] theorem endCycle_snpc (s : State) : (endCycle s).snpc = s.snpc := rfl
@[simp] theorem endCycle_dnpc (s : State) : (endCycle s).dnpc = s.dnpc := rfl
@[simp] theorem endCycle_mem (s : State) : (endCycle s).mem = s.mem := rfl
@[simp] theorem endCycle_refused (s : State) : (endCycle s).refused = s.refused := rfl
@[simp] theorem endCycle_trace (s : State) : (endCycle s).trace = s.trace := rfl
@[simp] theorem endCycle_signal (s : State) : (endCycle s).signal = s.signal := rfl
@[simp] theorem endCycle_run (s : State) : (endCycle s).run = s.run := rfl

/-! ### placeWord -/

@[simp] theorem placeWord_regs (s : State) (w : Word) : (placeWord s w).regs = s.regs := rfl
@[simp] theorem placeWord_pc (s : State) (w : Word) : (placeWord s w).pc = s.pc := rfl
@[simp] theorem placeWord_snpc (s : State) (w : Word) : (placeWord s w).snpc = s.snpc := rfl
@[simp] theorem placeWord_dnpc (s : State) (w : Word) : (placeWord s w).dnpc = s.dnpc := rfl
@[simp] theorem placeWord_mem (s : State) (w : Word) : (placeWord s w).mem = memWrite s.mem s.pc .four w := rfl
@[simp] theorem placeWord_refused (s : State) (w : Word) : (placeWord s w).refused = s.refused.filter (fun r => !r.covers s.pc .four) := rfl
@[simp] theorem placeWord_trace (s : State) (w : Word) : (placeWord s w).trace = s.trace := rfl
@[simp] theorem placeWord_signal (s : State) (w : Word) : (placeWord s w).signal = s.signal := rfl
@[simp] theorem placeWord_run (s : State) (w : Word) : (placeWord s w).run = .running := rfl

/-! ### untraced -/

@[simp] theorem untraced_regs (s : State) : (s.untraced).regs = s.regs := rfl
@[simp] theorem untraced_pc (s : State) : (s.untraced).pc = s.pc := rfl
@[simp] theorem untraced_snpc (s : State) : (s.untraced).snpc = s.snpc := rfl
@[simp] theorem untraced_dnpc (s : State) : (s.untraced).dnpc = s.dnpc := rfl
@[simp] theorem untraced_mem (s : State) : (s.untraced).mem = s.mem := rfl
@[simp] theorem untraced_refused (s : State) : (s.untraced).refused = s.refused := rfl
@[simp] theorem untraced_trace (s : State) : (s.untraced).trace = none := rfl
@[simp] theorem untraced_signal (s : State) : (s.untraced).signal = s.signal := rfl
@[simp] theorem untraced_run (s : State) : (s.untraced).run = s.run := rfl

/-! ### Registers -/

theorem x_setX (s : State) (r q : RegIdx) (v : Word) : (s.setX r v).x q = if r = q then v else s.x q := by
  simp only [State.x, setX_regs, Vector.getElem_set, BitVec.toNat_inj]

@[simp] theorem x_setX_same (s : State) (r : RegIdx) (v : Word) : (s.setX r v).x r = v := by simp [x_setX]

theorem x_setX_other (s : State) {r q : RegIdx} (v : Word) (h : r ≠ q) : (s.setX r v).x q = s.x q := by
  simp [x_setX, h]

@[simp] theorem x_endCycle_zero (s : State) : (endCycle s).x 0#5 = 0#32 := x_setX_same s 0#5 0#32

theorem x_endCycle_other (s : State) {q : RegIdx} (h : q ≠ 0#5) : (endCycle s).x q = s.x q :=
  x_setX_other s 0#32 (Ne.symm h)

@[simp] theorem x_setNextPc (s : State) (p : Word) (q : RegIdx) : (setNextPc p s).x q = s.x q := rfl
@[simp] theorem x_raiseSignal (s : State) (e : Signal) (q : RegIdx) : (raiseSignal e s).x q = s.x q := rfl
@[simp] theorem x_callTrace (s : State) (p q : Word) (r : RegIdx) : (callTrace p q s).x r = s.x r := rfl
@[simp] theorem x_beginCycle (s : State) (q : RegIdx) : (beginCycle s).x q = s.x q := rfl
@[simp] theorem x_placeWord (s : State) (w : Word) (q : RegIdx) : (placeWord s w).x q = s.x q := rfl
@[simp] theorem x_untraced (s : State) (q : RegIdx) : (s.untraced).x q = s.x q := rfl

/-! ### The accesses accepted -/

@[simp] theorem memValid_setX (s : State) (r : RegIdx) (v : Word) (b : Word) (n : Width) :
    (s.setX r v).memValid b n = s.memValid b n := rfl
@[simp] theorem memValid_setNextPc (s : State) (p : Word) (b : Word) (n : Width) :
    (setNextPc p s).memValid b n = s.memValid b n := rfl
@[simp] theorem memValid_raiseSignal (s : State) (e : Signal) (b : Word) (n : Width) :
    (raiseSignal e s).memValid b n = s.memValid b n := rfl
@[simp] theorem memValid_callTrace (s : State) (p q : Word) (b : Word) (n : Width) :
    (callTrace p q s).memValid b n = s.memValid b n := rfl
@[simp] theorem memValid_beginCycle (s : State) (b : Word) (n : Width) :
    (beginCycle s).memValid b n = s.memValid b n := rfl
@[simp] theorem memValid_endCycle (s : State) (b : Word) (n : Width) :
    (endCycle s).memValid b n = s.memValid b n := rfl
@[simp] theorem memValid_untraced (s : State) (b : Word) (n : Width) :
    (s.untraced).memValid b n = s.memValid b n := rfl

end Sys2Proof.Machine
end

