-- ==== Sys2Proof/Laws/Memory.lean ====
section
/-! SUPPORT. The laws of memory: a read after a write, the frame of a write, and the canonical form kept by every
operation. -/

namespace Sys2Proof.Machine

theorem lookup_erase (m : Memory) (a b : Nat) :
    Memory.lookup (Memory.erase m a) b = if a = b then Config.unlistedByte else Memory.lookup m b := by
  induction m with
  | nil => simp [Memory.erase, Memory.lookup]
  | cons c rest ih =>
    unfold Memory.erase at ih ⊢
    by_cases hc : c.1 = a
    · have hd : (c.1 != a) = false := by simp [hc]
      rw [List.filter_cons_of_neg (by simp [hd]), ih]
      by_cases hab : a = b
      · simp [hab]
      · simp [Memory.lookup, hab, hc]
    · have hd : (c.1 != a) = true := by simp [hc]
      rw [List.filter_cons_of_pos (by simp [hd])]
      simp only [Memory.lookup, ih]
      by_cases hab : a = b
      · subst hab; simp [hc]
      · simp [hab]

theorem lookup_insertCell_same (m : Memory) (a : Nat) (v : Byte) (h : ∀ c ∈ m, c.1 ≠ a) :
    Memory.lookup (Memory.insertCell m a v) a = v := by
  induction m with
  | nil => simp [Memory.insertCell, Memory.lookup]
  | cons c rest ih =>
    have hc : c.1 ≠ a := h c (by simp)
    have hr := ih (fun d hd => h d (by simp [hd]))
    unfold Memory.insertCell
    split <;> simp [Memory.lookup, hc, hr]

theorem lookup_insertCell_other (m : Memory) {a b : Nat} (v : Byte) (h : a ≠ b) :
    Memory.lookup (Memory.insertCell m a v) b = Memory.lookup m b := by
  induction m with
  | nil => simp [Memory.insertCell, Memory.lookup, h]
  | cons c rest ih =>
    unfold Memory.insertCell
    split <;> simp [Memory.lookup, h, ih]

theorem mem_erase {m : Memory} {a : Nat} {c : Host.Cell} (h : c ∈ Memory.erase m a) : c ∈ m ∧ c.1 ≠ a := by
  simpa [Memory.erase] using h

theorem lookup_update_same (m : Memory) (a : Nat) (v : Byte) : Memory.lookup (Memory.update m a v) a = v := by
  unfold Memory.update
  split
  · next h => simp [lookup_erase, h]
  · exact lookup_insertCell_same _ _ _ (fun c hc => (mem_erase hc).2)

theorem lookup_update_other (m : Memory) {a b : Nat} (v : Byte) (h : a ≠ b) :
    Memory.lookup (Memory.update m a v) b = Memory.lookup m b := by
  unfold Memory.update
  split
  · simp [lookup_erase, h]
  · rw [lookup_insertCell_other _ _ h]; simp [lookup_erase, h]

/-- The two laws of one byte: a read gives the byte last written there, and a write leaves every other byte alone. -/
theorem byteAt_setByte (m : Memory) (a b : Word) (v : Byte) :
    (m.setByte a v).byteAt b = if a = b then v else m.byteAt b := by
  unfold Memory.setByte Memory.byteAt
  by_cases h : a = b
  · subst h; simp [lookup_update_same]
  · have hn : a.toNat ≠ b.toNat := fun e => h (BitVec.eq_of_toNat_eq e)
    simp [h, lookup_update_other _ _ hn]

@[simp] theorem byteAt_setByte_same (m : Memory) (a : Word) (v : Byte) : (m.setByte a v).byteAt a = v := by
  simp [byteAt_setByte]

theorem byteAt_setByte_other (m : Memory) {a b : Word} (v : Byte) (h : a ≠ b) :
    (m.setByte a v).byteAt b = m.byteAt b := by
  simp [byteAt_setByte, h]

/-! ### The canonical form -/

theorem wf_nil : Memory.wf [] := by simp [Memory.wf]

theorem wf_erase {m : Memory} (h : m.wf) (a : Nat) : (Memory.erase m a).wf :=
  ⟨h.1.filter _, fun c hc => h.2 c (mem_erase hc).1⟩

theorem mem_insertCell {m : Memory} {a : Nat} {v : Byte} {c : Host.Cell} (h : c ∈ Memory.insertCell m a v) :
    c = (a, v) ∨ c ∈ m := by
  induction m with
  | nil => simpa [Memory.insertCell] using h
  | cons d rest ih =>
    unfold Memory.insertCell at h
    split at h
    · simpa using h
    · rcases List.mem_cons.1 h with h | h
      · simp [h]
      · rcases ih h with h | h <;> simp [h]

theorem pairwise_insertCell {m : Memory} {a : Nat} {v : Byte} (h : m.Pairwise (fun c d => c.1 < d.1))
    (ha : ∀ c ∈ m, c.1 ≠ a) : (Memory.insertCell m a v).Pairwise (fun c d => c.1 < d.1) := by
  induction m with
  | nil => simp [Memory.insertCell]
  | cons d rest ih =>
    rw [List.pairwise_cons] at h
    unfold Memory.insertCell
    split
    · next hlt =>
      refine List.pairwise_cons.2 ⟨fun c hc => ?_, List.pairwise_cons.2 h⟩
      rcases List.mem_cons.1 hc with hc | hc
      · simpa [hc] using hlt
      · exact Nat.lt_trans hlt (h.1 c hc)
    · next hnlt =>
      have hd : d.1 ≠ a := ha d (by simp)
      refine List.pairwise_cons.2 ⟨fun c hc => ?_, ih h.2 (fun c hc => ha c (by simp [hc]))⟩
      rcases mem_insertCell hc with hc | hc
      · subst hc; simp only; omega
      · exact h.1 c hc

theorem wf_update {m : Memory} (h : m.wf) {a : Nat} (ha : a < Config.addressSpace) (v : Byte) :
    (Memory.update m a v).wf := by
  unfold Memory.update
  split
  · exact wf_erase h a
  · next hv =>
    refine ⟨pairwise_insertCell (wf_erase h a).1 (fun c hc => (mem_erase hc).2), fun c hc => ?_⟩
    rcases mem_insertCell hc with hc | hc
    · subst hc; exact ⟨ha, hv⟩
    · exact (wf_erase h a).2 c hc

theorem wf_setByte {m : Memory} (h : m.wf) (a : Word) (v : Byte) : (m.setByte a v).wf :=
  wf_update h a.isLt v

/-- Every write keeps the canonical form. -/
theorem wf_memWrite {m : Memory} (h : m.wf) (a : Word) (n : Width) (v : Word) : (memWrite m a n v).wf := by
  cases n
  · exact wf_setByte h _ _
  · exact wf_setByte (wf_setByte h _ _) _ _
  · exact wf_setByte (wf_setByte (wf_setByte (wf_setByte h _ _) _ _) _ _) _ _

/-- So does laying down `INIT_MEM`. -/
theorem wf_ofCells (cells : List Host.Cell) : (Memory.ofCells cells).wf := by
  induction cells with
  | nil => exact wf_nil
  | cons c rest ih => exact wf_setByte ih _ _

theorem wf_reset : State.reset.mem.wf := wf_nil

/-! ### Words and bytes -/

theorem wordOfBytes_bytes (w : Word) :
    wordOfBytes (w.extractLsb' 0 8) (w.extractLsb' 8 8) (w.extractLsb' 16 8) (w.extractLsb' 24 8) = w := by
  unfold wordOfBytes
  ext i hi
  interval_cases i <;> simp

/-- The offsets of the bytes of one access lead to different addresses. -/
theorem add_offset_ne (a : Word) {k l : Word} (h : k ≠ l) : a + k ≠ a + l := fun e =>
  h ((BitVec.add_right_inj a).1 e)

/-- A write leaves every byte outside its own alone. -/
theorem byteAt_memWrite_outside (m : Memory) (a b : Word) (n : Width) (v : Word)
    (h : ∀ k, k < n.bytes → b ≠ a + BitVec.ofNat 32 k) : (memWrite m a n v).byteAt b = m.byteAt b := by
  cases n
  · have h0 := h 0 (by decide)
    simp only [BitVec.add_zero] at h0
    exact byteAt_setByte_other _ _ (Ne.symm h0)
  · have h0 := h 0 (by decide)
    have h1 := h 1 (by decide)
    simp only [BitVec.add_zero] at h0 h1
    simp only [memWrite]
    rw [byteAt_setByte_other _ _ (Ne.symm h1), byteAt_setByte_other _ _ (Ne.symm h0)]
  · have h0 := h 0 (by decide)
    have h1 := h 1 (by decide)
    have h2 := h 2 (by decide)
    have h3 := h 3 (by decide)
    simp only [BitVec.add_zero] at h0 h1 h2 h3
    simp only [memWrite]
    rw [byteAt_setByte_other _ _ (Ne.symm h3), byteAt_setByte_other _ _ (Ne.symm h2),
      byteAt_setByte_other _ _ (Ne.symm h1), byteAt_setByte_other _ _ (Ne.symm h0)]

end Sys2Proof.Machine
end

