-- ==== Sys2Proof/Laws/Decode.lean ====
section
/-! SUPPORT. The fields of an encoded word, format by format, and the tie between the decoder on bytes and on words. -/

namespace Sys2Proof

/-- The bytes of a word decode as the word does, and nothing is left over. -/
theorem decodeBytes_bytesOfWord (w : Word) (rest : List Byte) :
    decodeBytes (bytesOfWord w ++ rest) = .ok (decode w, rest) := by
  show Except.ok (decode (wordOfBytes _ _ _ _), rest) = _
  rw [Machine.wordOfBytes_bytes]

/-- A table row's word, read whole, decodes as the decoder reads it. -/
theorem decodeTableWord_word (w : Word) : decodeTableWord 32 w.toNat = some (decode w) := by
  have h : BitVec.ofNat 32 (w.toNat % 2 ^ 32) = w := by rw [Nat.mod_eq_of_lt w.isLt, BitVec.ofNat_toNat, BitVec.setWidth_eq]
  unfold decodeTableWord
  rw [h]
  have := decodeBytes_bytesOfWord w []
  rw [List.append_nil] at this
  simp [this]

section Fields

variable (imm : BitVec 12) (rs1 rs2 rd : RegIdx) (f : BitVec 3) (g o : BitVec 7)

theorem rdField_encodeI : rdField (encodeI imm rs1 f rd o) = rd := by
  unfold rdField encodeI; ext i hi; interval_cases i <;> simp

theorem rs1Field_encodeI : rs1Field (encodeI imm rs1 f rd o) = rs1 := by
  unfold rs1Field encodeI; ext i hi; interval_cases i <;> simp

theorem immIField_encodeI : immIField (encodeI imm rs1 f rd o) = imm := by
  unfold immIField encodeI; ext i hi; interval_cases i <;> simp

theorem rs1Field_encodeS : rs1Field (encodeS imm rs2 rs1 f o) = rs1 := by
  unfold rs1Field encodeS; ext i hi; interval_cases i <;> simp

theorem rs2Field_encodeS : rs2Field (encodeS imm rs2 rs1 f o) = rs2 := by
  unfold rs2Field encodeS; ext i hi; interval_cases i <;> simp

theorem immSField_encodeS : immSField (encodeS imm rs2 rs1 f o) = imm := by
  unfold immSField encodeS; ext i hi; interval_cases i <;> simp

theorem rdField_encodeR : rdField (encodeR g rs2 rs1 f rd o) = rd := by
  unfold rdField encodeR; ext i hi; interval_cases i <;> simp

theorem rs1Field_encodeR : rs1Field (encodeR g rs2 rs1 f rd o) = rs1 := by
  unfold rs1Field encodeR; ext i hi; interval_cases i <;> simp

theorem rs2Field_encodeR : rs2Field (encodeR g rs2 rs1 f rd o) = rs2 := by
  unfold rs2Field encodeR; ext i hi; interval_cases i <;> simp

theorem rs1Field_encodeB (off : BitVec 13) : rs1Field (encodeB off rs2 rs1 f o) = rs1 := by
  unfold rs1Field encodeB; ext i hi; interval_cases i <;> simp

theorem rs2Field_encodeB (off : BitVec 13) : rs2Field (encodeB off rs2 rs1 f o) = rs2 := by
  unfold rs2Field encodeB; ext i hi; interval_cases i <;> simp

/-- Format B gives the offset back where it is even: bit 0 has no place in the word. -/
theorem immBField_encodeB (off : BitVec 13) (h : off.getLsbD 0 = false) :
    immBField (encodeB off rs2 rs1 f o) = off := by
  have h0 : off[0] = false := by simpa using h
  unfold immBField encodeB; ext i hi; interval_cases i <;> simp [h0]

theorem rdField_encodeU (up : BitVec 20) : rdField (encodeU up rd o) = rd := by
  unfold rdField encodeU; ext i hi; interval_cases i <;> simp

theorem immUField_encodeU (up : BitVec 20) : immUField (encodeU up rd o) = up := by
  unfold immUField encodeU; ext i hi; interval_cases i <;> simp

theorem rdField_encodeJ (hw : BitVec 20) : rdField (encodeJ hw rd o) = rd := by
  unfold rdField encodeJ; ext i hi; interval_cases i <;> simp

theorem immJField_encodeJ (hw : BitVec 20) : immJField (encodeJ hw rd o) = hw := by
  unfold immJField encodeJ; ext i hi; interval_cases i <;> simp

/-! What the templates' masks keep of an encoded word: the literal fields. -/

theorem encodeI_masked : encodeI imm rs1 f rd o &&& 0x0000707F#32 = (f.setWidth 32 <<< 12) ||| o.setWidth 32 := by
  unfold encodeI; ext i hi; interval_cases i <;> simp

theorem encodeI_masked_imm : encodeI imm rs1 f rd o &&& 0xFFF0707F#32 =
    (imm.setWidth 32 <<< 20) ||| (f.setWidth 32 <<< 12) ||| o.setWidth 32 := by
  unfold encodeI; ext i hi; interval_cases i <;> simp

theorem encodeS_masked : encodeS imm rs2 rs1 f o &&& 0x0000707F#32 = (f.setWidth 32 <<< 12) ||| o.setWidth 32 := by
  unfold encodeS; ext i hi; interval_cases i <;> simp

theorem encodeB_masked (off : BitVec 13) :
    encodeB off rs2 rs1 f o &&& 0x0000707F#32 = (f.setWidth 32 <<< 12) ||| o.setWidth 32 := by
  unfold encodeB; ext i hi; interval_cases i <;> simp

theorem encodeU_masked (up : BitVec 20) : encodeU up rd o &&& 0x0000007F#32 = o.setWidth 32 := by
  unfold encodeU; ext i hi; interval_cases i <;> simp

theorem encodeJ_masked (hw : BitVec 20) : encodeJ hw rd o &&& 0x0000007F#32 = o.setWidth 32 := by
  unfold encodeJ; ext i hi; interval_cases i <;> simp

theorem encodeR_masked : encodeR g rs2 rs1 f rd o &&& 0xFE00707F#32 =
    (g.setWidth 32 <<< 25) ||| (f.setWidth 32 <<< 12) ||| o.setWidth 32 := by
  unfold encodeR; ext i hi; interval_cases i <;> simp

end Fields

/-! Reading a word's fields and encoding them again gives the word. -/

section Reencode

variable (w : Word)

theorem encodeI_fields :
    encodeI (immIField w) (rs1Field w) (funct3Field w) (rdField w) (opcodeField w) = w := by
  unfold encodeI immIField rs1Field funct3Field rdField opcodeField; ext i hi; interval_cases i <;> simp

theorem encodeS_fields :
    encodeS (immSField w) (rs2Field w) (rs1Field w) (funct3Field w) (opcodeField w) = w := by
  unfold encodeS immSField rs2Field rs1Field funct3Field opcodeField; ext i hi; interval_cases i <;> simp

theorem encodeB_fields :
    encodeB (immBField w) (rs2Field w) (rs1Field w) (funct3Field w) (opcodeField w) = w := by
  unfold encodeB immBField rs2Field rs1Field funct3Field opcodeField; ext i hi; interval_cases i <;> simp

theorem encodeU_fields : encodeU (immUField w) (rdField w) (opcodeField w) = w := by
  unfold encodeU immUField rdField opcodeField; ext i hi; interval_cases i <;> simp

theorem encodeJ_fields : encodeJ (immJField w) (rdField w) (opcodeField w) = w := by
  unfold encodeJ immJField rdField opcodeField; ext i hi; interval_cases i <;> simp

theorem encodeR_fields :
    encodeR (funct7Field w) (rs2Field w) (rs1Field w) (funct3Field w) (rdField w) (opcodeField w) = w := by
  unfold encodeR funct7Field rs2Field rs1Field funct3Field rdField opcodeField; ext i hi; interval_cases i <;> simp

/-! A field survives a mask that covers it. -/

theorem opcodeField_masked {m : Word} (h : m &&& 0x7F#32 = 0x7F#32) : opcodeField (w &&& m) = opcodeField w := by
  unfold opcodeField; ext i hi
  have hb := congrArg (fun v => v.getLsbD i) h
  interval_cases i <;> simp at hb <;> simp [hb]

theorem funct3Field_masked {m : Word} (h : m &&& 0x7000#32 = 0x7000#32) : funct3Field (w &&& m) = funct3Field w := by
  unfold funct3Field; ext i hi
  have hb := congrArg (fun v => v.getLsbD (i + 12)) h
  interval_cases i <;> simp at hb <;> simp [hb]

theorem funct7Field_masked {m : Word} (h : m &&& 0xFE000000#32 = 0xFE000000#32) :
    funct7Field (w &&& m) = funct7Field w := by
  unfold funct7Field; ext i hi
  have hb := congrArg (fun v => v.getLsbD (i + 25)) h
  interval_cases i <;> simp at hb <;> simp [hb]

theorem immIField_masked {m : Word} (h : m &&& 0xFFF00000#32 = 0xFFF00000#32) : immIField (w &&& m) = immIField w := by
  unfold immIField; ext i hi
  have hb := congrArg (fun v => v.getLsbD (i + 20)) h
  interval_cases i <;> simp at hb <;> simp [hb]

end Reencode

end Sys2Proof
end

