-- ==== Sys2Proof/Laws/Ops.lean ====
section
/-! SUPPORT. What each shared operation can answer, said once: the memory request, the execute cycle, the fetch and the
driver. Later proofs cite these and do not unfold the operations. -/

namespace Sys2Proof.Machine

/-! ### The memory request -/

theorem withAccess_accepted {s : State} {a : Word} {n : Width} (h : s.memValid a n = true) (r : Result) :
    withAccess s a n r = r := by simp [withAccess, h]

theorem withAccess_refused {s : State} {a : Word} {n : Width} (h : s.memValid a n = false) (r : Result) :
    withAccess s a n r = .fault (.memoryRefused s.pc a n) := by simp [withAccess, h]

theorem withAccess_next {s t : State} {a : Word} {n : Width} {r : Result} (h : withAccess s a n r = .next t) :
    s.memValid a n = true ∧ r = .next t := by
  unfold withAccess at h
  split at h
  · next hv => exact ⟨hv, h⟩
  · cases h

theorem withAccess_fault {s : State} {a : Word} {n : Width} {r : Result} {f : Fault}
    (h : withAccess s a n r = .fault f) :
    (s.memValid a n = false ∧ f = .memoryRefused s.pc a n) ∨ (s.memValid a n = true ∧ r = .fault f) := by
  unfold withAccess at h
  split at h
  · next hv => exact .inr ⟨hv, h⟩
  · next hv => exact .inl ⟨by simpa using hv, by cases h; rfl⟩

/-! ### The execute cycle -/

theorem executeOnce_of_next {action : State → Result} {s u : State} (h : action (beginCycle s) = .next u) :
    executeOnce action s = .next (endCycle u) := by simp [executeOnce, h]

theorem executeOnce_of_fault {action : State → Result} {s : State} {f : Fault}
    (h : action (beginCycle s) = .fault f) : executeOnce action s = .fault f := by simp [executeOnce, h]

theorem executeOnce_next {action : State → Result} {s t : State} (h : executeOnce action s = .next t) :
    ∃ u, action (beginCycle s) = .next u ∧ t = endCycle u := by
  unfold executeOnce at h
  split at h
  · next u hu => cases h; exact ⟨u, hu, rfl⟩
  · cases h
  · cases h

theorem executeOnce_fault {action : State → Result} {s : State} {f : Fault} (h : executeOnce action s = .fault f) :
    action (beginCycle s) = .fault f := by
  unfold executeOnce at h
  split at h
  · cases h
  · next hu => cases h; exact hu
  · cases h

/-! ### The driver -/

theorem driverCommit_quiet {s : State} (h : s.signal = none) : driverCommit s = { s with pc := s.dnpc } := by
  simp [driverCommit, h]

theorem driverCommit_trap {s : State} {p v : Word} (h : s.signal = some (.trap p v)) :
    driverCommit s = { s with run := .halted p v, signal := none } := by simp [driverCommit, h]

theorem driverCommit_invalid {s : State} {p : Word} (h : s.signal = some (.invalidInstruction p)) :
    driverCommit s = { s with run := .aborted p, signal := none } := by simp [driverCommit, h]

@[simp] theorem driverCommit_regs (s : State) : (driverCommit s).regs = s.regs := by
  unfold driverCommit; split <;> rfl

@[simp] theorem driverCommit_mem (s : State) : (driverCommit s).mem = s.mem := by unfold driverCommit; split <;> rfl

@[simp] theorem driverCommit_dnpc (s : State) : (driverCommit s).dnpc = s.dnpc := by
  unfold driverCommit; split <;> rfl

@[simp] theorem driverCommit_snpc (s : State) : (driverCommit s).snpc = s.snpc := by
  unfold driverCommit; split <;> rfl

@[simp] theorem driverCommit_refused (s : State) : (driverCommit s).refused = s.refused := by
  unfold driverCommit; split <;> rfl

@[simp] theorem driverCommit_trace (s : State) : (driverCommit s).trace = s.trace := by
  unfold driverCommit; split <;> rfl

@[simp] theorem driverCommit_signal (s : State) : (driverCommit s).signal = none := by
  unfold driverCommit; split <;> simp_all

@[simp] theorem x_driverCommit (s : State) (r : RegIdx) : (driverCommit s).x r = s.x r := by simp [State.x]

theorem drive_next {r : Result} {t : State} (h : drive r = .next t) : ∃ u, r = .next u ∧ t = driverCommit u := by
  cases r <;> simp only [drive] at h <;> cases h
  exact ⟨_, rfl, rfl⟩

theorem drive_fault {r : Result} {f : Fault} (h : drive r = .fault f) : r = .fault f := by
  cases r <;> simp only [drive] at h <;> cases h
  rfl

theorem whileRunning_running {s : State} (h : s.run = .running) (go : Result) : whileRunning s go = go := by
  simp [whileRunning, h]

/-- What a step that answers a next state has done: a halted run stays; a running one has fetched an accepted word,
run it, and let the driver commit. -/
theorem step_next {s t : State} (h : step s = .next t) :
    ((∃ p v, s.run = .halted p v) ∧ t = s) ∨
    (s.run = .running ∧ s.memValid s.pc .four = true ∧
      ∃ u, exec (decode s.fetched) { s with snpc := s.pc + 4#32 } = .next u ∧ t = driverCommit u) := by
  unfold step whileRunning at h
  split at h
  · next hr =>
    obtain ⟨hv, hd⟩ := withAccess_next h
    obtain ⟨u, hu, ht⟩ := drive_next hd
    exact .inr ⟨hr, hv, u, hu, ht⟩
  · next p v hr => cases h; exact .inl ⟨⟨p, v, hr⟩, rfl⟩
  · cases h

/-- A running step whose fetch is accepted is the driver around `exec` of the fetched word. -/
theorem step_running {s : State} (hr : s.run = .running) (hv : s.memValid s.pc .four = true) :
    step s = drive (exec (decode s.fetched) { s with snpc := s.pc + 4#32 }) := by
  unfold step fetchThen
  rw [whileRunning_running hr, withAccess_accepted hv]
  rfl

/-- A halted run stays where it is. -/
theorem step_halted {s : State} {p v : Word} (h : s.run = .halted p v) : step s = .next s := by
  simp [step, whileRunning, h]

/-- With nothing refused, every access is accepted. -/
theorem memValid_of_refused_nil {s : State} (h : s.refused = []) (a : Word) (n : Width) : s.memValid a n = true := by
  simp [State.memValid, h]

/-! ### The registers after a cycle -/

theorem endCycle_writesOnly {s u : State} (h : ∀ r, u.x r = s.x r) (rd : RegIdx) (v : Word) :
    WritesOnly s (endCycle (u.setX rd v)) rd v := by
  refine ⟨by simp, fun h0 => ?_, fun r h0 hr => ?_⟩
  · rw [x_endCycle_other _ h0, x_setX_same]
  · rw [x_endCycle_other _ h0, x_setX_other _ _ (Ne.symm hr), h]

theorem endCycle_writesNoRegister {s u : State} (h : ∀ r, u.x r = s.x r) : WritesNoRegister s (endCycle u) :=
  ⟨by simp, fun r h0 => by rw [x_endCycle_other _ h0, h]⟩

/-- The launch of the default parameters is the reset state. -/
theorem launch_reset :
    State.launch Config.resetPc (Vector.replicate 32 Config.resetX) [] [] false = State.reset := rfl

end Sys2Proof.Machine
end

