-- ==== Sys2Proof/Laws/Exec.lean ====
section
/-! SUPPORT. What each instruction answers, one equation each: the provers cite these instead of unfolding the meanings. -/

namespace Sys2Proof.Machine

/-- Every instruction is one execute cycle around its action on its decoded operands. -/
theorem exec_cycle (i : Instr) (s : State) : ∃ action, exec i s = executeOnce action s := by
  cases i with
  | lw rd rs1 imm => exact ⟨loadAction (operandsI rd rs1 imm s) .four, rfl⟩
  | addi rd rs1 imm => exact ⟨addiAction (operandsI rd rs1 imm s), rfl⟩
  | seqz rd rs1 => exact ⟨seqzAction (operandsI rd rs1 1#12 s), rfl⟩
  | jal rd imm => exact ⟨jalAction (operandsJ rd imm), rfl⟩
  | sw rs1 rs2 imm => exact ⟨storeAction (operandsS rs1 rs2 imm s) .four, rfl⟩
  | srl rd rs1 rs2 => exact ⟨srlAction (operandsR rd rs1 rs2 s), rfl⟩
  | ret => exact ⟨retAction (operandsI 0#5 ra 0#12 s), rfl⟩
  | jalr rd rs1 imm => exact ⟨jalrAction (operandsI rd rs1 imm s), rfl⟩
  | beq rs1 rs2 imm => exact ⟨beqAction (operandsB rs1 rs2 imm s), rfl⟩
  | auipc rd imm => exact ⟨auipcAction (operandsU rd imm), rfl⟩
  | lbu rd rs1 imm => exact ⟨loadAction (operandsI rd rs1 imm s) .one, rfl⟩
  | sb rs1 rs2 imm => exact ⟨storeAction (operandsS rs1 rs2 imm s) .one, rfl⟩
  | ebreak => exact ⟨ebreakAction, rfl⟩
  | inv => exact ⟨invAction, rfl⟩

variable (s : State) (rd rs1 rs2 : RegIdx)

theorem exec_addi (imm : BitVec 12) : exec (.addi rd rs1 imm) s =
    .next (endCycle ((beginCycle s).setX rd (s.x rs1 + imm.signExtend 32))) := rfl

theorem exec_seqz : exec (.seqz rd rs1) s =
    .next (endCycle ((beginCycle s).setX rd (conditionWord (belowOne (s.x rs1))))) := rfl

theorem exec_srl : exec (.srl rd rs1 rs2) s =
    .next (endCycle ((beginCycle s).setX rd (s.x rs1 >>> shiftAmount (s.x rs2)))) := rfl

theorem exec_auipc (imm : BitVec 20) : exec (.auipc rd imm) s =
    .next (endCycle ((beginCycle s).setX rd (s.pc + imm.signExtend 32 <<< 12))) := rfl

theorem exec_lw (imm : BitVec 12) : exec (.lw rd rs1 imm) s =
    withAccess s (s.x rs1 + imm.signExtend 32) .four
      (.next (endCycle ((beginCycle s).setX rd (memRead s.mem (s.x rs1 + imm.signExtend 32) .four)))) := by
  cases h : s.memValid (s.x rs1 + imm.signExtend 32) .four
  · rw [withAccess_refused h]
    exact executeOnce_of_fault (withAccess_refused h _)
  · rw [withAccess_accepted h]
    exact executeOnce_of_next (withAccess_accepted h _)

theorem exec_lbu (imm : BitVec 12) : exec (.lbu rd rs1 imm) s =
    withAccess s (s.x rs1 + imm.signExtend 32) .one
      (.next (endCycle ((beginCycle s).setX rd (memRead s.mem (s.x rs1 + imm.signExtend 32) .one)))) := by
  cases h : s.memValid (s.x rs1 + imm.signExtend 32) .one
  · rw [withAccess_refused h]
    exact executeOnce_of_fault (withAccess_refused h _)
  · rw [withAccess_accepted h]
    exact executeOnce_of_next (withAccess_accepted h _)

theorem exec_sw (imm : BitVec 12) : exec (.sw rs1 rs2 imm) s =
    withAccess s (s.x rs1 + imm.signExtend 32) .four
      (.next (endCycle { beginCycle s with
        mem := memWrite s.mem (s.x rs1 + imm.signExtend 32) .four (s.x rs2) })) := by
  cases h : s.memValid (s.x rs1 + imm.signExtend 32) .four
  · rw [withAccess_refused h]
    exact executeOnce_of_fault (withAccess_refused h _)
  · rw [withAccess_accepted h]
    exact executeOnce_of_next (withAccess_accepted h _)

theorem exec_sb (imm : BitVec 12) : exec (.sb rs1 rs2 imm) s =
    withAccess s (s.x rs1 + imm.signExtend 32) .one
      (.next (endCycle { beginCycle s with
        mem := memWrite s.mem (s.x rs1 + imm.signExtend 32) .one (s.x rs2) })) := by
  cases h : s.memValid (s.x rs1 + imm.signExtend 32) .one
  · rw [withAccess_refused h]
    exact executeOnce_of_fault (withAccess_refused h _)
  · rw [withAccess_accepted h]
    exact executeOnce_of_next (withAccess_accepted h _)

theorem exec_jal (imm : BitVec 20) : exec (.jal rd imm) s =
    .next (endCycle (setNextPc (s.pc + imm.signExtend 32 <<< 1) ((beginCycle s).setX rd (s.pc + 4#32)))) := rfl

theorem exec_jalr (imm : BitVec 12) : exec (.jalr rd rs1 imm) s =
    .next (endCycle (setNextPc (s.x rs1 + imm.signExtend 32) ((beginCycle s).setX rd (s.pc + 4#32)))) := rfl

theorem exec_ret : exec .ret s =
    .next (endCycle (callTrace s.pc (s.x ra &&& 0xFFFFFFFE#32)
      (setNextPc (s.x ra &&& 0xFFFFFFFE#32) (beginCycle s)))) := rfl

theorem exec_beq (imm : BitVec 13) : exec (.beq rs1 rs2 imm) s =
    .next (endCycle (if s.x rs1 = s.x rs2 then setNextPc (s.pc + imm.signExtend 32) (beginCycle s)
      else beginCycle s)) := by
  by_cases h : s.x rs1 = s.x rs2 <;>
    simp [exec, execBeq, beqAction, executeOnce, operandsB, wordsEqual, h]

theorem exec_ebreak : exec .ebreak s = .next (endCycle (raiseSignal (.trap s.pc (s.x a0)) (beginCycle s))) := rfl

theorem exec_inv : exec .inv s = .next (endCycle (raiseSignal (.invalidInstruction s.pc) (beginCycle s))) := rfl

end Sys2Proof.Machine
end

