-- ==== Sys2Proof/Laws/PerInstr.lean ====
section
/-! SUPPORT. Per-instruction facts about the encoding: an instruction's word is selected by the table entry that bears
its mnemonic and format (spec 30_encoding.md R76, R81). -/

namespace Sys2Proof.Laws.EncodeSelected

/-- The instruction's own table entry selects its encoded word. -/
def Statement (i : Instr) : Prop :=
  ∃ e ∈ table, e.mnemonic = i.mnemonic ∧ e.format = i.format ∧ e.selects (encode i) = true

/-- Entry `k` of the table is the one that does. -/
theorem of_entry {i : Instr} (k : Nat) (hk : k < table.length) (hm : table[k].mnemonic = i.mnemonic)
    (hf : table[k].format = i.format) (hs : encode i &&& table[k].mask = table[k].value) : Statement i :=
  ⟨table[k], List.getElem_mem hk, hm, hf, by simpa [Entry.selects] using hs⟩

variable (rd rs1 rs2 : RegIdx)

theorem lw (imm : BitVec 12) : Statement (.lw rd rs1 imm) :=
  of_entry 0 (by decide) rfl rfl ((encodeI_masked imm rs1 rd 0b010#3 0b0000011#7).trans (by decide))

theorem addi (imm : BitVec 12) : Statement (.addi rd rs1 imm) :=
  of_entry 1 (by decide) rfl rfl ((encodeI_masked imm rs1 rd 0b000#3 0b0010011#7).trans (by decide))

theorem seqz : Statement (.seqz rd rs1) :=
  of_entry 2 (by decide) rfl rfl ((encodeI_masked_imm 0x001#12 rs1 rd 0b011#3 0b0010011#7).trans (by decide))

theorem jal (imm : BitVec 20) : Statement (.jal rd imm) :=
  of_entry 3 (by decide) rfl rfl ((encodeJ_masked rd 0b1101111#7 imm).trans (by decide))

theorem sw (imm : BitVec 12) : Statement (.sw rs1 rs2 imm) :=
  of_entry 4 (by decide) rfl rfl ((encodeS_masked imm rs1 rs2 0b010#3 0b0100011#7).trans (by decide))

theorem srl : Statement (.srl rd rs1 rs2) :=
  of_entry 5 (by decide) rfl rfl ((encodeR_masked rs1 rs2 rd 0b101#3 0b0000000#7 0b0110011#7).trans (by decide))

theorem ret : Statement .ret := of_entry 6 (by decide) rfl rfl (by decide)

theorem jalr (imm : BitVec 12) : Statement (.jalr rd rs1 imm) :=
  of_entry 7 (by decide) rfl rfl ((encodeI_masked imm rs1 rd 0b000#3 0b1100111#7).trans (by decide))

theorem beq (imm : BitVec 13) : Statement (.beq rs1 rs2 imm) :=
  of_entry 8 (by decide) rfl rfl ((encodeB_masked rs1 rs2 0b000#3 0b1100011#7 imm).trans (by decide))

theorem auipc (imm : BitVec 20) : Statement (.auipc rd imm) :=
  of_entry 9 (by decide) rfl rfl ((encodeU_masked rd 0b0010111#7 imm).trans (by decide))

theorem lbu (imm : BitVec 12) : Statement (.lbu rd rs1 imm) :=
  of_entry 10 (by decide) rfl rfl ((encodeI_masked imm rs1 rd 0b100#3 0b0000011#7).trans (by decide))

theorem sb (imm : BitVec 12) : Statement (.sb rs1 rs2 imm) :=
  of_entry 11 (by decide) rfl rfl ((encodeS_masked imm rs1 rs2 0b000#3 0b0100011#7).trans (by decide))

theorem ebreak : Statement .ebreak := of_entry 12 (by decide) rfl rfl (by decide)

theorem inv : Statement .inv := of_entry 13 (by decide) rfl rfl (by decide)

end Sys2Proof.Laws.EncodeSelected
end

