-- ==== Sys2Proof/Tests/Slice0.lean ====
section
/-! SUPPORT. The model's own tests: the well-formedness checks, words written out from the encoding, one step of each
instruction with the values of spec/95_test_vectors.md, and for every statement with hypotheses a state that meets them. -/

namespace Sys2Proof.Tests

open Sys2Proof.Machine

/-! ### Helpers -/

/-- A running state at `pc` with the named registers and the named little-endian words in memory; everything else is as
`State.reset` has it. -/
def start (pc : Word) (regs : List (RegIdx × Word)) (words : List (Word × Word)) : State :=
  let s := regs.foldr (fun r t => t.setX r.1 r.2) { State.reset with pc := pc, snpc := pc + 4#32 }
  { s with mem := words.foldr (fun w m => memWrite m w.1 .four w.2) [] }

/-- What `f` reads from the state an answer gives, `none` where it stops. -/
def after {α : Type} (r : Result) (f : State → α) : Option α :=
  match r with
  | .next t => some (f t)
  | .fault _ => none
  | .refused _ => none

/-- One step at 0x1000 of a word placed there, on the named registers and further memory words. -/
def stepOf (w : Word) (regs : List (RegIdx × Word)) (words : List (Word × Word)) : Result :=
  step (start 0x1000#32 regs ((0x1000#32, w) :: words))

/-! ### Well-formedness: one ill-formed term for each check -/

/-- A branch offset must be even (30_encoding.md R81). -/
theorem test_wellFormed_refuses_odd_branch_offset : (Instr.beq 1 2 3).wellFormed = false := by decide

theorem test_wellFormed_accepts_even_branch_offset : (Instr.beq 1 2 2).wellFormed = true := by decide

/-- `jalr x0, x1, 0` is `ret` (30_encoding.md R77, R84). -/
theorem test_wellFormed_refuses_jalr_of_ret : (Instr.jalr 0 1 0).wellFormed = false := by decide

theorem test_wellFormed_accepts_neighbours_of_ret :
    (Instr.jalr 2 1 0).wellFormed = true ∧ (Instr.jalr 0 5 0).wellFormed = true ∧
      (Instr.jalr 0 1 1).wellFormed = true := by decide

/-! ### Decoding: words written out bit by bit in the fields of 30_encoding.md R66, R76 -/

theorem test_decode_lw : decode 0b111111111100_00010_010_00101_0000011#32 = .lw 5 2 (-4) := by decide
theorem test_decode_addi : decode 0b000000000101_00000_000_00001_0010011#32 = .addi 1 0 5 := by decide
theorem test_decode_seqz : decode 0b000000000001_00110_011_00101_0010011#32 = .seqz 5 6 := by decide
theorem test_decode_jal : decode 0b1_1111111110_1_11111111_00000_1101111#32 = .jal 0 (-2) := by decide
theorem test_decode_sw : decode 0b0111111_00101_00110_010_11111_0100011#32 = .sw 6 5 2047 := by decide
theorem test_decode_srl : decode 0b0000000_00111_00110_101_00101_0110011#32 = .srl 5 6 7 := by decide
theorem test_decode_ret : decode 0b000000000000_00001_000_00000_1100111#32 = .ret := by decide
theorem test_decode_jalr : decode 0b000000001100_00101_000_00110_1100111#32 = .jalr 6 5 12 := by decide
theorem test_decode_beq : decode 0b0_000000_00011_00010_000_0100_0_1100011#32 = .beq 2 3 8 := by decide
theorem test_decode_auipc : decode 0b10000000000000000000_00101_0010111#32 = .auipc 5 0x80000 := by decide
theorem test_decode_lbu : decode 0b011111111111_00010_100_00101_0000011#32 = .lbu 5 2 2047 := by decide
theorem test_decode_sb : decode 0b0000001_00111_01000_000_00000_0100011#32 = .sb 8 7 32 := by decide
theorem test_decode_ebreak : decode 0b000000000001_00000_000_00000_1110011#32 = .ebreak := by decide
theorem test_decode_inv : decode 0b11111111111111111111111111111111#32 = .inv := by decide

/-- 95_test_vectors.md V1: neighbours of valid words, and valid RISC-V words that CORE does not have. -/
theorem test_decode_neighbours :
    decode 0x00008167#32 = .jalr 2 1 0 ∧ decode 0x00108067#32 = .jalr 0 1 1 ∧ decode 0x00028067#32 = .jalr 0 5 0 := by
  decide

theorem test_decode_invalid_system :
    decode 0x00000000#32 = .inv ∧ decode 0x00000073#32 = .inv ∧ decode 0x00200073#32 = .inv ∧
    decode 0x30200073#32 = .inv ∧ decode 0x0000000F#32 = .inv := by decide

theorem test_decode_invalid_integer :
    decode 0x00003013#32 = .inv ∧ decode 0x00203013#32 = .inv ∧ decode 0x40005033#32 = .inv ∧
    decode 0x02000033#32 = .inv ∧ decode 0x00000033#32 = .inv ∧ decode 0x00005013#32 = .inv := by decide

theorem test_decode_invalid_others :
    decode 0x00001067#32 = .inv ∧ decode 0x00001063#32 = .inv ∧ decode 0x00001003#32 = .inv ∧
    decode 0x00001023#32 = .inv ∧ decode 0x00000037#32 = .inv ∧ decode 0x00000001#32 = .inv := by decide

/-- Fewer than four bytes are no instruction, and bytes beyond four are handed back (30_encoding.md R60). -/
theorem test_decodeBytes :
    decodeBytes [0x93, 0x00, 0x50] = .error .truncated ∧
      decodeBytes [0x93, 0x00, 0x50, 0x00, 0xAA] = .ok (.addi 1 0 5, [0xAA]) := ⟨rfl, rfl⟩

theorem test_decodeTableWord :
    decodeTableWord 32 0x00008067 = some .ret ∧ decodeTableWord 64 0x00008067 = none := by decide

/-! ### One step of each instruction (95_test_vectors.md V3 to V6, S4, S5) -/

theorem test_addi_negative : after (stepOf 0x80028293#32 [(5, 0x000007FF)] []) (fun t => (t.x 5, t.pc)) =
    some (0xFFFFFFFF, 0x1004) := by decide

theorem test_addi_x0 : after (stepOf 0x00130013#32 [(6, 4)] []) (fun t => t.x 0) = some 0 := by decide

theorem test_seqz_zero : after (stepOf 0x0012B293#32 [(5, 0)] []) (fun t => t.x 5) = some 1 := by decide

theorem test_seqz_top_bit : after (stepOf 0x00133293#32 [(6, 0x80000000), (5, 7)] []) (fun t => t.x 5) = some 0 := by
  decide

theorem test_srl_amount_40 : after (stepOf 0x007352B3#32 [(6, 0x80000000), (7, 0x28)] []) (fun t => t.x 5) =
    some 0x00800000 := by decide

theorem test_srl_same_register : after (stepOf 0x0052D2B3#32 [(5, 0x104)] []) (fun t => t.x 5) = some 0x10 := by decide

theorem test_auipc : after (stepOf 0x00001297#32 [] []) (fun t => (t.x 5, t.pc)) = some (0x2000, 0x1004) := by decide

theorem test_auipc_wraps : after (stepOf 0xFFFFF297#32 [(5, 7)] []) (fun t => t.x 5) = some 0 := by decide

theorem test_lw_misaligned :
    after (stepOf 0x00112283#32 [(2, 0x2000)] [(0x2000, 0x44332211), (0x2004, 0x88776655)]) (fun t => t.x 5) =
      some 0x55443322 := by decide

theorem test_lw_same_register :
    after (stepOf 0x00012103#32 [(2, 0x2000)] [(0x2000, 0x00002123)]) (fun t => t.x 2) = some 0x2123 := by decide

theorem test_lbu_zero_extends :
    after (stepOf 0x00314283#32 [(2, 0x2000)] [(0x2000, 0xDEADBEEF)]) (fun t => t.x 5) = some 0xDE := by decide

theorem test_lbu_top_of_memory :
    after (stepOf 0xFFF04283#32 [] [(0xFFFFFFFC, 0xAB000000)]) (fun t => t.x 5) = some 0xAB := by decide

theorem test_sw_bytes :
    after (stepOf 0x7E532FA3#32 [(5, 0xAABBCCDD), (6, 0x2000)] [])
      (fun t => [t.mem.byteAt 0x27FF, t.mem.byteAt 0x2800, t.mem.byteAt 0x2801, t.mem.byteAt 0x2802, t.mem.byteAt 0x2803]) =
    some [0xDD, 0xCC, 0xBB, 0xAA, 0] := by decide

/-- A store of zeros leaves no entry: the canonical form (the word at 0x1000 remains). -/
theorem test_sw_zero :
    after (stepOf 0x00032023#32 [(6, 0x2000)] [(0x2000, 0xFFFFFFFF)]) (fun t => t.mem) =
      some [(0x1000, 0x23), (0x1001, 0x20), (0x1002, 0x03)] := by decide

theorem test_sb_low_byte :
    after (stepOf 0x02740023#32 [(7, 0x100), (8, 0x2000)] [(0x2020, 0x55)]) (fun t => t.mem.byteAt 0x2020) = some 0 := by
  decide

theorem test_sb_neighbours :
    after (stepOf 0xFE530FA3#32 [(5, 0x12345678), (6, 0x2001)] [(0x2000, 0xDEADBEEF)])
      (fun t => memRead t.mem 0x2000 .four) = some 0xDEADBE78 := by decide

theorem test_jal_forward : after (stepOf 0x001000EF#32 [] []) (fun t => (t.pc, t.x 1)) = some (0x1800, 0x1004) := by
  decide

theorem test_jal_back : after (stepOf 0xFFDFF06F#32 [] []) (fun t => (t.pc, t.x 0)) = some (0x0FFC, 0) := by decide

theorem test_jalr_same_register :
    after (stepOf 0x000080E7#32 [(1, 0x3000)] []) (fun t => (t.pc, t.x 1)) = some (0x3000, 0x1004) := by decide

theorem test_jalr_keeps_bit_zero :
    after (stepOf 0x00028067#32 [(5, 0x80001001)] []) (fun t => t.pc) = some 0x80001001 := by decide

theorem test_ret_clears_bit_zero :
    after (step { start 0x1000#32 [(1, 0x80001001)] [(0x1000, 0x00008067)] with trace := some [] })
      (fun t => (t.pc, t.x 1, t.trace)) =
    some (0x80001000, 0x80001001, some [⟨0x1000, 0x80001000⟩]) := by decide

theorem test_ret_untraced :
    after (stepOf 0x00008067#32 [(1, 0xFFFFFFFF)] []) (fun t => (t.pc, t.trace)) = some (0xFFFFFFFE, none) := by decide

theorem test_beq_taken : after (stepOf 0x00310463#32 [(2, 7), (3, 7)] []) (fun t => t.pc) = some 0x1008 := by decide

theorem test_beq_differs_in_bit_31 :
    after (stepOf 0xFE208FE3#32 [(1, 0x80000000)] []) (fun t => t.pc) = some 0x1004 := by decide

theorem test_ebreak_signal :
    after (exec .ebreak (start 0x1000#32 [(10, 0x2A)] [])) (fun t => (t.signal, t.dnpc)) =
      some (some (.trap 0x1000 0x2A), 0x1004) := by decide

theorem test_ebreak_halts :
    after (stepOf 0x00100073#32 [(10, 0x2A)] []) (fun t => (t.run, t.pc)) = some (.halted 0x1000 0x2A, 0x1000) := by
  decide

theorem test_inv_signal :
    after (exec .inv (start 0x1000#32 [(1, 5)] [])) (fun t => (t.signal, t.x 1)) =
      some (some (.invalidInstruction 0x1000), 5) := by decide

theorem test_inv_aborts : after (stepOf 0xFFFFFFFF#32 [] []) (fun t => t.run) = some (.aborted 0x1000) := by decide

/-! ### Witnesses: for each statement with hypotheses, a state and operands that meet them all

`witness_<Name>` belongs to `Obligations.<Name>`. -/

/-- A state that refuses 4-byte accesses at 0x2000 to 0x2FFF and 1-byte accesses at 0x3000, and nothing else. -/
def guarded (regs : List (RegIdx × Word)) : State :=
  { start 0x1000#32 regs [] with refused := [⟨0x2000, 0x2FFF, .four⟩, ⟨0x3000, 0x3000, .one⟩] }

theorem witness_AddiWritesSum : 0xFFF30293#32 &&& 0x0000707F#32 = 0x00000013#32 := by decide

theorem witness_SeqzWritesZeroTest :
    0x00133293#32 &&& 0xFFF0707F#32 = 0x00103013#32 ∧ decode 0x00133293#32 = .seqz 5 6 := by decide

theorem witness_SrlShiftsByLowFiveBits : 0x007352B3#32 &&& 0xFE00707F#32 = 0x00005033#32 := by decide

theorem witness_AuipcAddsUpperImmediate : 0xFFFFF297#32 &&& 0x0000007F#32 = 0x00000017#32 := by decide

/-- The access just above a refused range, and one that wraps at the top of the address space. -/
theorem witness_LwLoadsWord :
    0xFFC12283#32 &&& 0x0000707F#32 = 0x00002003#32 ∧
    (guarded [(2, 0x3004)]).memValid ((guarded [(2, 0x3004)]).x 2 + (-4#12).signExtend 32) .four = true ∧
    (guarded [(2, 2)]).memValid ((guarded [(2, 2)]).x 2 + (-4#12).signExtend 32) .four = true := by decide

/-- A byte inside the range refused for words, and the last byte of the address space. -/
theorem witness_LbuLoadsZeroExtendedByte :
    0x7FF14283#32 &&& 0x0000707F#32 = 0x00004003#32 ∧
    (guarded [(2, 0x2000)]).memValid ((guarded [(2, 0x2000)]).x 2 + (0#12).signExtend 32) .one = true ∧
    (guarded []).memValid ((guarded []).x 0 + (-1#12).signExtend 32) .one = true := by decide

theorem witness_SwStoresWord :
    0x80532023#32 &&& 0x0000707F#32 = 0x00002023#32 ∧
    (guarded [(6, 0x2003)]).memValid ((guarded [(6, 0x2003)]).x 6 + (-4#12).signExtend 32) .four = true := by decide

theorem witness_SbStoresLowByte :
    0xFE530FA3#32 &&& 0x0000707F#32 = 0x00000023#32 ∧
    (guarded [(6, 0x3002)]).memValid ((guarded [(6, 0x3002)]).x 6 + (-1#12).signExtend 32) .one = true := by decide

theorem witness_JalLinksAndJumps : 0x800000EF#32 &&& 0x0000007F#32 = 0x0000006F#32 := by decide

theorem witness_JalrLinksAndKeepsBitZero :
    0x00008167#32 &&& 0x0000707F#32 = 0x00000067#32 ∧ 0x00008167#32 ≠ 0x00008067#32 := by decide

theorem witness_RetClearsBitZero :
    ({ start 0x1000#32 [] [] with trace := some [] } : State).trace = some [] ∧ (start 0x1000#32 [] []).trace = none :=
  ⟨rfl, rfl⟩

/-- Registers that agree in all bits, and registers that differ in bit 31 only. -/
theorem witness_BeqBranchesOnEquality :
    0xFE208FE3#32 &&& 0x0000707F#32 = 0x00000063#32 ∧
    (∀ i, i < 32 → ((start 0 [(1, 7), (2, 7)] []).x 1).getLsbD i = ((start 0 [(1, 7), (2, 7)] []).x 2).getLsbD i) ∧
    ((start 0 [(1, 0x80000000)] []).x 1).getLsbD 31 ≠ ((start 0 [(1, 0x80000000)] []).x 2).getLsbD 31 := by decide

/-- A form with a destination, both stores, and `ret` beside a form that is not `ret`. -/
theorem witness_InstructionFrame :
    (∃ t, exec (.addi 5 6 1) (start 0x1000#32 [] []) = .next t) ∧
    destinationRegister (.addi 5 6 1) ≠ some 6#5 ∧
    storeRequest (.addi 5 6 1) (start 0x1000#32 [] []) = none ∧
    (∃ t, exec (.sw 6 5 (-1)) (start 0x1000#32 [] []) = .next t) ∧
    storeRequest (.sw 6 5 (-1)) (start 0x1000#32 [] []) = some (0xFFFFFFFF#32, .four) ∧
    (∃ t, exec (.sb 6 5 0) (start 0x1000#32 [(6, 0x2000)] []) = .next t) ∧
    storeRequest (.sb 6 5 0) (start 0x1000#32 [(6, 0x2000)] []) = some (0x2000#32, .one) ∧
    (∃ t, exec .ret (start 0x1000#32 [] []) = .next t) :=
  ⟨⟨_, rfl⟩, by decide, rfl, ⟨_, rfl⟩, by decide, ⟨_, rfl⟩, by decide, ⟨_, rfl⟩⟩

theorem witness_RegisterZeroReadsZero : ∃ t, exec (.addi 0 6 1) (start 0x1000#32 [(6, 4)] []) = .next t := ⟨_, rfl⟩

/-- A branch not taken decides nothing; the same branch taken does; and `snpc` is `pc + 4`. -/
theorem witness_OnlyTransfersDecideNextPc :
    (∃ t, exec (.beq 2 3 8) (start 0x1000#32 [(2, 7)] []) = .next t) ∧
    decidesNextPc (.beq 2 3 8) (start 0x1000#32 [(2, 7)] []) = false ∧
    (start 0x1000#32 [(2, 7)] []).snpc = (start 0x1000#32 [(2, 7)] []).pc + 4#32 ∧
    (∃ t, exec (.beq 2 3 8) (start 0x1000#32 [] []) = .next t) ∧
    decidesNextPc (.beq 2 3 8) (start 0x1000#32 [] []) = true := by
  refine ⟨⟨_, exec_beq _ _ _ _⟩, by decide, rfl, ⟨_, exec_beq _ _ _ _⟩, by decide⟩

theorem witness_OnlyTwoEventsExist :
    (∃ t, exec .ebreak (start 0x1000#32 [(10, 42)] []) = .next t ∧ t.signal = some (.trap 0x1000#32 42#32)) ∧
    (∃ t, exec .inv (start 0x1000#32 [] []) = .next t ∧ t.signal = some (.invalidInstruction 0x1000#32)) ∧
    ∃ t, exec (.jal 0 0) (start 0x1000#32 [] []) = .next t ∧ t.signal = none :=
  ⟨⟨_, rfl, rfl⟩, ⟨_, rfl, rfl⟩, ⟨_, rfl, rfl⟩⟩

theorem witness_EventsArePrecise :
    (start 0xFFFFFFFC#32 [] []).snpc = (start 0xFFFFFFFC#32 [] []).pc + 4#32 ∧ (start 0xFFFFFFFC#32 [] []).x 0#5 = 0#32 ∧
    (∃ t, exec .ebreak (start 0xFFFFFFFC#32 [] []) = .next t ∧ t.signal = some (.trap 0xFFFFFFFC#32 0#32)) ∧
    ∃ t, exec .inv (start 0xFFFFFFFC#32 [] []) = .next t ∧ t.signal = some (.invalidInstruction 0xFFFFFFFC#32) :=
  ⟨by decide, by decide, ⟨_, rfl, rfl⟩, ⟨_, rfl, rfl⟩⟩

/-- Two states that agree on the source x6 and differ in the destination x5 and in x7. -/
theorem witness_RegistersReadAndWritten :
    (∀ r ∈ sourceRegisters (.addi 5 6 1), (start 0 [(5, 1), (6, 4), (7, 9)] []).x r = (start 0 [(6, 4)] []).x r) ∧
    start 0 [(5, 1), (6, 4), (7, 9)] [] =
      { start 0 [(6, 4)] [] with regs := (start 0 [(5, 1), (6, 4), (7, 9)] []).regs } ∧
    (∃ t, exec (.addi 5 6 1) (start 0 [(6, 4)] []) = .next t) ∧ destinationRegister (.addi 5 6 1) = some 5#5 ∧
    destinationRegister (.addi 5 6 1) ≠ some 7#5 :=
  ⟨by decide, rfl, ⟨_, rfl⟩, rfl, by decide⟩

theorem witness_OnlyReturnsAreTraced :
    (∃ t, exec .ret { start 0 [] [] with trace := some [⟨0#32, 4#32⟩] } = .next t) ∧
    (∃ t, exec (.jal 1 8) { start 0 [] [] with trace := some [⟨0#32, 4#32⟩] } = .next t) ∧
    ∃ t, exec .ret (start 0 [] []) = .next t ∧ (start 0 [] []).trace = none :=
  ⟨⟨_, rfl⟩, ⟨_, rfl⟩, ⟨_, rfl, rfl⟩⟩

/-- Each of the four requests refused, at the ends of the refused ranges. -/
theorem witness_OnlyRefusedMemoryStops :
    exec (.lw 0 2 0) (guarded [(2, 0x2000)]) = .fault (.memoryRefused 0x1000#32 0x2000#32 .four) ∧
    exec (.lbu 5 2 0) (guarded [(2, 0x3000)]) = .fault (.memoryRefused 0x1000#32 0x3000#32 .one) ∧
    exec (.sw 2 5 (-1)) (guarded [(2, 0x3000)]) = .fault (.memoryRefused 0x1000#32 0x2FFF#32 .four) ∧
    exec (.sb 2 5 0) (guarded [(2, 0x3000)]) = .fault (.memoryRefused 0x1000#32 0x3000#32 .one) :=
  ⟨rfl, rfl, rfl, rfl⟩

theorem witness_RefusedAccessFaults :
    (guarded [(2, 0x2000)]).memValid ((guarded [(2, 0x2000)]).x 2 + (0#12).signExtend 32) .four = false ∧
    (guarded [(2, 0x3001)]).memValid ((guarded [(2, 0x3001)]).x 2 + (-1#12).signExtend 32) .one = false ∧
    (guarded [(2, 0x3000)]).memValid ((guarded [(2, 0x3000)]).x 2 + (-1#12).signExtend 32) .four = false ∧
    ({ guarded [] with pc := 0x2FFF#32 } : State).run = .running ∧
    ({ guarded [] with pc := 0x2FFF#32 } : State).memValid 0x2FFF#32 .four = false := by decide

/-- Bit 31 literal 1, bit 30 literal 0, the rest wild; two words that differ in wild bits only. -/
theorem witness_TemplateIsMaskAndMatch :
    ((.one :: .zero :: List.replicate 30 .any : List TemplateBit)).length = 32 ∧
    (∀ i, i < 32 → ((.one :: .zero :: List.replicate 30 .any : List TemplateBit))[31 - i]? ≠ some .any →
      (0xBFFFFFFF#32).getLsbD i = (0x80000000#32).getLsbD i) ∧
    templateMatches (.one :: .zero :: List.replicate 30 .any) 0x80000000#32 = true := by decide

/-- Entry 6 is the first that selects `0x00008067`, and the catch-all the first that selects the all-ones word. -/
theorem witness_FirstMatchWins :
    ((table.map (fun e => e.selects 0x00008067#32)).take 7 = [false, false, false, false, false, false, true]) ∧
    ((table.map (fun e => e.selects 0xFFFFFFFF#32)) = List.replicate 13 false ++ [true]) := by decide

theorem witness_OnlyRetAndCatchAllOverlap :
    (table.map (fun e => e.selects 0x00008067#32)) =
      [false, false, false, false, false, false, true, true, false, false, false, false, false, true] := by decide

/-- The table with its first two entries exchanged keeps `ret` before `jalr` and the catch-all last. -/
theorem witness_OtherOrderIsUnobservable (h0 : 0 < table.length) (h1 : 1 < table.length) (h6 : 6 < table.length)
    (h7 : 7 < table.length) (h13 : 13 < table.length) :
    ((table[1] :: table[0] :: (table.drop 2).take 4) ++ table[6] :: ([] ++ table[7] ::
      ((table.drop 8).take 5 ++ [table[13]]))).Perm table :=
  List.Perm.swap table[0] table[1] (table.drop 2)

theorem witness_DecodeInvertsEncode :
    (Instr.beq 1 2 0x1000).wellFormed = true ∧ (Instr.jalr 0 1 0x800).wellFormed = true ∧
    Instr.inv.wellFormed = true := by decide

theorem witness_EncodeInvertsDecode : decode 0x80000063#32 ≠ .inv := by decide

/-- Just below and just above an access that wraps at the top of the address space. -/
theorem witness_ReadReturnsLastWritten :
    (∀ k, k < Width.four.bytes → 2#32 ≠ 0xFFFFFFFE#32 + BitVec.ofNat 32 k) ∧
    (∀ k, k < Width.four.bytes → 0xFFFFFFFD#32 ≠ 0xFFFFFFFE#32 + BitVec.ofNat 32 k) ∧
    (∀ k, k < Width.one.bytes → 1#32 ≠ 0#32 + BitVec.ofNat 32 k) := by decide

theorem witness_MemoryIsLittleEndian : (3 < 4 ∧ 1 < 2) := by decide

theorem witness_MixedWidthAccesses : (0xABCDEF11#32).extractLsb' 0 8 = 0x11#8 := by decide

theorem witness_StepRunsDecodedInstruction :
    (start 0x1000#32 [] [(0x1000, 0x00500093)]).run = .running ∧
    (start 0x1000#32 [] [(0x1000, 0x00500093)]).memValid 0x1000#32 .four = true ∧
    decodeBytes [(start 0x1000#32 [] [(0x1000, 0x00500093)]).mem.byteAt 0x1000#32,
      (start 0x1000#32 [] [(0x1000, 0x00500093)]).mem.byteAt 0x1001#32,
      (start 0x1000#32 [] [(0x1000, 0x00500093)]).mem.byteAt 0x1002#32,
      (start 0x1000#32 [] [(0x1000, 0x00500093)]).mem.byteAt 0x1003#32] = .ok (.addi 1 0 5, []) :=
  ⟨rfl, rfl, rfl⟩

/-- A run that goes on (a taken branch to itself), and one that ends. -/
theorem witness_NextPcOfEveryEntry :
    (start 0x1000#32 [] [(0x1000, 0x00528063)]).run = .running ∧
    after (stepOf 0x00528063#32 [] []) (fun t => t.run) = some .running ∧
    after (stepOf 0x00100073#32 [] []) (fun t => t.run) ≠ some .running := by decide

theorem witness_EbreakHaltsTheRun :
    (start 0x1000#32 [] [(0x1000, 0x00100073)]).run = .running ∧
    (start 0x1000#32 [] [(0x1000, 0x00100073)]).memValid 0x1000#32 .four = true ∧
    (start 0x1000#32 [] [(0x1000, 0x00100073)]).fetched = 0x00100073#32 := by decide

/-- Reset memory holds zeros, and the word of zeros is invalid. -/
theorem witness_InvalidWordAbortsTheRun :
    (start 0xFFFFFFFE#32 [] []).run = .running ∧ (start 0xFFFFFFFE#32 [] []).memValid 0xFFFFFFFE#32 .four = true ∧
    validWord (start 0xFFFFFFFE#32 [] []).fetched = false := by decide

theorem witness_FetchSeesThePrecedingStore :
    (start 0x1000#32 [(6, 0x1004), (5, 0x00100073)] [(0x1000, 0x00532023)]).run = .running ∧
    (start 0x1000#32 [(6, 0x1004), (5, 0x00100073)] [(0x1000, 0x00532023)]).refused = [] ∧
    decode (start 0x1000#32 [(6, 0x1004), (5, 0x00100073)] [(0x1000, 0x00532023)]).fetched = .sw 6 5 0 ∧
    (start 0x1000#32 [(6, 0x1004), (5, 0x00100073)] [(0x1000, 0x00532023)]).x 6 + (0#12).signExtend 32 =
      (start 0x1000#32 [(6, 0x1004), (5, 0x00100073)] [(0x1000, 0x00532023)]).pc + 4#32 := by decide

theorem witness_RunningMachineIsNeverStuck :
    (start 0x1000#32 [] []).run = .running ∧ (start 0x1000#32 [] []).refused = [] := by decide

/-- A traced return, and a step with no tracer. -/
theorem witness_LaunchParametersStayFixed :
    (after (step { start 0x1000#32 [] [(0x1000, 0x00008067)] with trace := some [] }) (fun t => t.trace)).isSome = true ∧
    (after (stepOf 0x00008067#32 [] []) (fun t => t.trace)) = some none := by decide

theorem witness_PlacedWordRunsNext : decodeTableWord 32 0x00500093 = some (.addi 1 0 5) := by decide

/-- `State.reset` is a state `start` gives. -/
theorem test_start_reset : start 0#32 [] [] = { State.reset with snpc := 4#32 } := rfl

/-- A state with the invariant whose step is a store and answers. -/
theorem witness_StepKeepsInv :
    State.Inv (start 0x1000#32 [(5, 1)] [(0x1000, 0x00502023)]) ∧
    (after (step (start 0x1000#32 [(5, 1)] [(0x1000, 0x00502023)])) (fun t => t.mem.byteAt 0)) = some 1 :=
  ⟨⟨by decide, by decide, rfl, fun p v h => (by cases h), fun p h => (by cases h), fun e h => (by cases h)⟩, by decide⟩

end Sys2Proof.Tests
end

section
/-! SUPPORT. What a step does to the launch parameters (spec 00_scope.md R9): `MEM_VALID` and the tracer's record. -/

namespace Sys2Proof.Machine

/-- The part of every instruction's frame outside registers, memory and `dnpc`: only `ret` touches the tracer's record
(10_state.md R24, R25; 60_exceptions.md R205). -/
theorem exec_sameAround_trace {i : Instr} {s t : State} (h : exec i s = .next t) :
    SameAround s t ∧ (i ≠ .ret → t.trace = s.trace) := by
  cases i with
  | lw _ _ _ | lbu _ _ _ | sw _ _ _ | sb _ _ _ =>
    obtain ⟨u, hu, rfl⟩ := executeOnce_next h
    obtain ⟨-, hu⟩ := withAccess_next hu
    cases hu
    simp [SameAround]
  | beq rs1 rs2 imm =>
    rw [exec_beq] at h
    cases h
    split <;> simp [SameAround]
  | addi _ _ _ | seqz _ _ | srl _ _ _ | auipc _ _ | jal _ _ | jalr _ _ _ | ret | ebreak | inv =>
    cases h
    simp [SameAround]

/-- An instruction reports at most one edge, and reports it only where a tracer is attached (10_state.md R37). -/
theorem exec_trace {i : Instr} {s t : State} (h : exec i s = .next t) :
    t.trace = s.trace ∨ ∃ e : CallEdge, t.trace = s.trace.map (· ++ [e]) := by
  by_cases hi : i = .ret
  · subst hi
    rw [exec_ret] at h
    cases h
    exact .inr ⟨_, rfl⟩
  · exact .inl ((exec_sameAround_trace h).2 hi)

/-- A step keeps `MEM_VALID`, and keeps the tracer's record or appends one edge to it. -/
theorem step_refused_trace {s t : State} (h : step s = .next t) :
    t.refused = s.refused ∧ (t.trace = s.trace ∨ ∃ e : CallEdge, t.trace = s.trace.map (· ++ [e])) := by
  obtain ⟨-, rfl⟩ | ⟨-, -, u, hu, rfl⟩ := step_next h
  · exact ⟨rfl, .inl rfl⟩
  · obtain ⟨⟨-, -, hrefused, -⟩, -⟩ := exec_sameAround_trace hu
    have htrace := exec_trace hu
    rw [driverCommit_refused, driverCommit_trace]
    exact ⟨hrefused, htrace⟩

end Sys2Proof.Machine

open Sys2Proof.Machine in
/-- Settles O45: every step keeps `MEM_VALID` and appends at most the one edge of a `ret` to an attached tracer's record. -/
theorem launchParametersStayFixed : Obligations.LaunchParametersStayFixed := by
  intro s t h
  obtain ⟨hrefused, htrace | ⟨e, htrace⟩⟩ := step_refused_trace h
  · exact ⟨hrefused, fun hs => htrace.trans hs, fun edges hs => ⟨[], by simp [htrace, hs], by simp⟩⟩
  · exact ⟨hrefused, fun hs => by simp [htrace, hs], fun edges hs => ⟨[e], by simp [htrace, hs], by simp⟩⟩
end

section
/-! SUPPORT. What one instruction does to each part of the state, said once for all fourteen: registers, memory, `dnpc`,
the signal and the tracer's record (spec 10_state.md R21, R23, R26; 60_exceptions.md R190). -/

namespace Sys2Proof.Machine

/-! ### Registers -/

/-- `x[rd] <- v` where an instruction has a destination, nothing where it has none. -/
def writeBack (dest : Option RegIdx) (v : Word) (s : State) : State :=
  match dest with
  | none => s
  | some rd => s.setX rd v

@[simp] theorem writeBack_none (v : Word) (s : State) : writeBack none v s = s := rfl
@[simp] theorem writeBack_some (rd : RegIdx) (v : Word) (s : State) : writeBack (some rd) v s = s.setX rd v := rfl

theorem x_endCycle_writeBack_other (s : State) {dest : Option RegIdx} (v : Word) {r : RegIdx} (h0 : r ≠ 0#5)
    (hr : dest ≠ some r) : (endCycle (writeBack dest v s)).x r = s.x r := by
  rw [x_endCycle_other _ h0]
  cases dest with
  | none => rfl
  | some rd => exact x_setX_other s v fun e => hr (congrArg some e)

/-- What the destination holds after the cycle is the written value, or 0 in x0, whatever the state written to. -/
theorem x_endCycle_writeBack_dest (s s' : State) (rd : RegIdx) (v : Word) :
    (endCycle (writeBack (some rd) v s)).x rd = (endCycle (writeBack (some rd) v s')).x rd := by
  by_cases h0 : rd = 0#5
  · subst h0; simp
  · simp [x_endCycle_other _ h0]

theorem endCycle_writeBack_regs (dest : Option RegIdx) (v : Word) (s : State) (regs : Vector Word 32) :
    endCycle (writeBack dest v { s with regs := regs }) =
      { endCycle (writeBack dest v s) with regs := (endCycle (writeBack dest v { s with regs := regs })).regs } := by
  cases dest <;> rfl

/-- x0 is 0 whenever a cycle completes (10_state.md R21). -/
theorem exec_zeroRegister {i : Instr} {s t : State} (h : exec i s = .next t) : t.x 0#5 = 0#32 := by
  obtain ⟨action, hcycle⟩ := exec_cycle i s
  obtain ⟨u, -, rfl⟩ := executeOnce_next (hcycle.symm.trans h)
  exact x_endCycle_zero u

/-- An instruction that answers computes one value `v` and one remaining state `u` from its source registers alone, then
writes `v` to its destination: every register file with the same sources gives the same answer up to the registers not
written (10_state.md R23). -/
theorem exec_dependsOnSources {i : Instr} {s t : State} (h : exec i s = .next t) :
    ∃ (u : State) (v : Word), ∀ regs : Vector Word 32,
      (∀ r ∈ sourceRegisters i, State.x { s with regs := regs } r = s.x r) →
      exec i { s with regs := regs } =
        .next (endCycle (writeBack (destinationRegister i) v { u with regs := regs })) := by
  cases i with
  | lw rd rs1 imm =>
    obtain ⟨hv, -⟩ := withAccess_next (exec_lw s rd rs1 imm ▸ h)
    exact ⟨beginCycle s, memRead s.mem (s.x rs1 + imm.signExtend 32) .four, fun regs hs => by
      rw [exec_lw, hs rs1 (by simp [sourceRegisters])]; exact withAccess_accepted hv _⟩
  | lbu rd rs1 imm =>
    obtain ⟨hv, -⟩ := withAccess_next (exec_lbu s rd rs1 imm ▸ h)
    exact ⟨beginCycle s, memRead s.mem (s.x rs1 + imm.signExtend 32) .one, fun regs hs => by
      rw [exec_lbu, hs rs1 (by simp [sourceRegisters])]; exact withAccess_accepted hv _⟩
  | sw rs1 rs2 imm =>
    obtain ⟨hv, -⟩ := withAccess_next (exec_sw s rs1 rs2 imm ▸ h)
    exact ⟨{ beginCycle s with mem := memWrite s.mem (s.x rs1 + imm.signExtend 32) .four (s.x rs2) }, 0#32,
      fun regs hs => by
        rw [exec_sw, hs rs1 (by simp [sourceRegisters]), hs rs2 (by simp [sourceRegisters])]
        exact withAccess_accepted hv _⟩
  | sb rs1 rs2 imm =>
    obtain ⟨hv, -⟩ := withAccess_next (exec_sb s rs1 rs2 imm ▸ h)
    exact ⟨{ beginCycle s with mem := memWrite s.mem (s.x rs1 + imm.signExtend 32) .one (s.x rs2) }, 0#32,
      fun regs hs => by
        rw [exec_sb, hs rs1 (by simp [sourceRegisters]), hs rs2 (by simp [sourceRegisters])]
        exact withAccess_accepted hv _⟩
  | addi rd rs1 imm =>
    exact ⟨beginCycle s, s.x rs1 + imm.signExtend 32, fun regs hs => by
      rw [exec_addi, hs _ (by simp [sourceRegisters])]; rfl⟩
  | seqz rd rs1 =>
    exact ⟨beginCycle s, conditionWord (belowOne (s.x rs1)), fun regs hs => by
      rw [exec_seqz, hs _ (by simp [sourceRegisters])]; rfl⟩
  | srl rd rs1 rs2 =>
    exact ⟨beginCycle s, s.x rs1 >>> shiftAmount (s.x rs2), fun regs hs => by
      rw [exec_srl, hs rs1 (by simp [sourceRegisters]), hs rs2 (by simp [sourceRegisters])]; rfl⟩
  | auipc rd imm => exact ⟨beginCycle s, s.pc + imm.signExtend 32 <<< 12, fun regs _ => rfl⟩
  | jal rd imm =>
    exact ⟨setNextPc (s.pc + imm.signExtend 32 <<< 1) (beginCycle s), s.pc + 4#32, fun regs _ => rfl⟩
  | jalr rd rs1 imm =>
    exact ⟨setNextPc (s.x rs1 + imm.signExtend 32) (beginCycle s), s.pc + 4#32, fun regs hs => by
      rw [exec_jalr, hs _ (by simp [sourceRegisters])]; rfl⟩
  | ret =>
    exact ⟨callTrace s.pc (s.x ra &&& 0xFFFFFFFE#32) (setNextPc (s.x ra &&& 0xFFFFFFFE#32) (beginCycle s)), 0#32,
      fun regs hs => by rw [exec_ret, hs ra (by simp [sourceRegisters, ra])]; rfl⟩
  | beq rs1 rs2 imm =>
    refine ⟨if s.x rs1 = s.x rs2 then setNextPc (s.pc + imm.signExtend 32) (beginCycle s) else beginCycle s, 0#32,
      fun regs hs => ?_⟩
    rw [exec_beq, hs rs1 (by simp [sourceRegisters]), hs rs2 (by simp [sourceRegisters])]
    split <;> rfl
  | ebreak =>
    exact ⟨raiseSignal (.trap s.pc (s.x a0)) (beginCycle s), 0#32,
      fun regs hs => by rw [exec_ebreak, hs a0 (by simp [sourceRegisters, a0])]; rfl⟩
  | inv => exact ⟨raiseSignal (.invalidInstruction s.pc) (beginCycle s), 0#32, fun regs _ => rfl⟩

/-- Every register but x0 and the destination keeps its value (10_state.md R23). -/
theorem exec_otherRegisters {i : Instr} {s t : State} (h : exec i s = .next t) {r : RegIdx} (h0 : r ≠ 0#5)
    (hr : destinationRegister i ≠ some r) : t.x r = s.x r := by
  obtain ⟨u, v, hans⟩ := exec_dependsOnSources h
  cases h.symm.trans (hans s.regs fun _ _ => rfl)
  exact x_endCycle_writeBack_other _ v h0 hr

/-! ### Memory -/

/-- Memory is as before, or one store has written it at the address and width of the instruction's own request
(20_memory.md R41). -/
theorem exec_mem {i : Instr} {s t : State} (h : exec i s = .next t) :
    (storeRequest i s = none ∧ t.mem = s.mem) ∨
      ∃ a n v, storeRequest i s = some (a, n) ∧ t.mem = memWrite s.mem a n v := by
  cases i with
  | sw _ _ _ | sb _ _ _ =>
    obtain ⟨u, hu, rfl⟩ := executeOnce_next h
    obtain ⟨-, hu⟩ := withAccess_next hu
    cases hu
    exact .inr ⟨_, _, _, rfl, rfl⟩
  | lw _ _ _ | lbu _ _ _ =>
    obtain ⟨u, hu, rfl⟩ := executeOnce_next h
    obtain ⟨-, hu⟩ := withAccess_next hu
    cases hu
    exact .inl ⟨rfl, rfl⟩
  | beq _ _ _ =>
    rw [exec_beq] at h
    cases h
    exact .inl ⟨rfl, by split <;> rfl⟩
  | addi _ _ _ | seqz _ _ | srl _ _ _ | auipc _ _ | jal _ _ | jalr _ _ _ | ret | ebreak | inv =>
    cases h
    exact .inl ⟨rfl, rfl⟩

theorem exec_keeps_wf {i : Instr} {s t : State} (h : exec i s = .next t) (hwf : s.mem.wf) : t.mem.wf := by
  obtain ⟨-, hmem⟩ | ⟨a, n, v, -, hmem⟩ := exec_mem h <;> rw [hmem]
  · exact hwf
  · exact wf_memWrite hwf a n v

/-! ### The next pc -/

/-- An instruction that does not decide `dnpc` leaves it at `snpc` (10_state.md R26). -/
theorem exec_dnpc_sequential {i : Instr} {s t : State} (h : exec i s = .next t) (hd : decidesNextPc i s = false) :
    t.dnpc = s.snpc := by
  cases i with
  | jal _ _ | jalr _ _ _ | ret => simp [decidesNextPc] at hd
  | beq rs1 rs2 _ =>
    have hne : s.x rs1 ≠ s.x rs2 := by simpa [decidesNextPc] using hd
    rw [exec_beq, if_neg hne] at h
    cases h
    rfl
  | lw _ _ _ | lbu _ _ _ | sw _ _ _ | sb _ _ _ =>
    obtain ⟨u, hu, rfl⟩ := executeOnce_next h
    obtain ⟨-, hu⟩ := withAccess_next hu
    cases hu
    rfl
  | addi _ _ _ | seqz _ _ | srl _ _ _ | auipc _ _ | ebreak | inv =>
    cases h
    rfl

/-- An instruction that decides `dnpc` always answers, with one target whatever `snpc` was presented
(10_state.md R26). -/
theorem exec_dnpc_decided {i : Instr} {s : State} (hd : decidesNextPc i s = true) :
    ∃ target : Word, ∀ v : Word, ∃ t, exec i { s with snpc := v } = .next t ∧ t.dnpc = target := by
  cases i with
  | jal rd imm => exact ⟨s.pc + imm.signExtend 32 <<< 1, fun v => ⟨_, rfl, rfl⟩⟩
  | jalr rd rs1 imm => exact ⟨s.x rs1 + imm.signExtend 32, fun v => ⟨_, rfl, rfl⟩⟩
  | ret => exact ⟨s.x ra &&& 0xFFFFFFFE#32, fun v => ⟨_, rfl, rfl⟩⟩
  | beq rs1 rs2 imm =>
    have heq : s.x rs1 = s.x rs2 := by simpa [decidesNextPc] using hd
    exact ⟨s.pc + imm.signExtend 32, fun v =>
      ⟨_, exec_beq _ rs1 rs2 imm, congrArg (fun u => (endCycle u).dnpc) (if_pos heq)⟩⟩
  | lw _ _ _ | lbu _ _ _ | sw _ _ _ | sb _ _ _ | addi _ _ _ | seqz _ _ | srl _ _ _ | auipc _ _ | ebreak | inv =>
    simp [decidesNextPc] at hd

/-! ### The signal and the tracer's record -/

/-- `ebreak` raises `Trap`, `inv` raises `InvalidInstruction`, and every other instruction raises nothing
(60_exceptions.md R190). -/
theorem exec_signal {i : Instr} {s t : State} (h : exec i s = .next t) :
    (i = .ebreak ∧ t.signal = some (.trap s.pc (s.x a0))) ∨
    (i = .inv ∧ t.signal = some (.invalidInstruction s.pc)) ∨
    (i ≠ .ebreak ∧ i ≠ .inv ∧ t.signal = none) := by
  cases i with
  | ebreak => cases h; exact .inl ⟨rfl, rfl⟩
  | inv => cases h; exact .inr (.inl ⟨rfl, rfl⟩)
  | lw _ _ _ | lbu _ _ _ | sw _ _ _ | sb _ _ _ =>
    obtain ⟨u, hu, rfl⟩ := executeOnce_next h
    obtain ⟨-, hu⟩ := withAccess_next hu
    cases hu
    simp
  | beq _ _ _ =>
    rw [exec_beq] at h
    cases h
    split <;> simp
  | addi _ _ _ | seqz _ _ | srl _ _ _ | auipc _ _ | jal _ _ | jalr _ _ _ | ret =>
    cases h
    simp

/-- Every return target in a tracer's record is even (43_control_transfer.md R162). -/
def EdgesEven (trace : Option (List CallEdge)) : Prop :=
  ∀ edges, trace = some edges → ∀ e ∈ edges, e.toPc.getLsbD 0 = false

theorem edgesEven_map_append {trace : Option (List CallEdge)} (h : EdgesEven trace) {e : CallEdge}
    (he : e.toPc.getLsbD 0 = false) : EdgesEven (trace.map (· ++ [e])) := by
  intro edges hedges d hd
  obtain ⟨old, hold, rfl⟩ := Option.map_eq_some_iff.1 hedges
  obtain hd | hd := List.mem_append.1 hd
  · exact h old hold d hd
  · rwa [List.mem_singleton.1 hd]

theorem exec_keeps_edgesEven {i : Instr} {s t : State} (h : exec i s = .next t) (heven : EdgesEven s.trace) :
    EdgesEven t.trace := by
  by_cases hi : i = .ret
  · subst hi
    rw [exec_ret] at h
    cases h
    exact edgesEven_map_append heven (by simp)
  · rwa [(exec_sameAround_trace h).2 hi]

end Sys2Proof.Machine
end

section
/-! SUPPORT. The machine's invariant over one step (spec 10_state.md R21; 60_exceptions.md R191, R192). -/

namespace Sys2Proof.Machine

/-- A recorded outcome names the instruction at `pc`, with `dnpc = pc + 4`, and a halted one the value of `a0`: the
clauses of the invariant about the run. -/
def OutcomeHere (s : State) : Prop :=
  (∀ p v, s.run = .halted p v → p = s.pc ∧ v = s.x a0 ∧ s.dnpc = s.pc + 4#32) ∧
    ∀ p, s.run = .aborted p → p = s.pc ∧ s.dnpc = s.pc + 4#32

/-- After a cycle of a running machine with `snpc = pc + 4` presented, whatever outcome the driver records is that of the
instruction at `pc`: the two signalling entries carry their own `pc`, leave `dnpc` at `snpc` and write no register. -/
theorem driverCommit_outcomeHere {i : Instr} {s u : State} (hrun : s.run = .running) (hsnpc : s.snpc = s.pc + 4#32)
    (h : exec i s = .next u) : OutcomeHere (driverCommit u) := by
  obtain ⟨⟨hpc, -, -, hurun⟩, -⟩ := exec_sameAround_trace h
  obtain ⟨rfl, hsig⟩ | ⟨rfl, hsig⟩ | ⟨-, -, hsig⟩ := exec_signal h
  · have ha0 : u.x a0 = s.x a0 := exec_otherRegisters h (by decide) (by simp [destinationRegister])
    have hdnpc : u.dnpc = u.pc + 4#32 := by rw [exec_dnpc_sequential h rfl, hsnpc, hpc]
    rw [driverCommit_trap hsig]
    refine ⟨fun p v hr => ?_, nofun⟩
    cases hr
    exact ⟨hpc.symm, ha0.symm, hdnpc⟩
  · have hdnpc : u.dnpc = u.pc + 4#32 := by rw [exec_dnpc_sequential h rfl, hsnpc, hpc]
    rw [driverCommit_invalid hsig]
    refine ⟨nofun, fun p hr => ?_⟩
    cases hr
    exact ⟨hpc.symm, hdnpc⟩
  · rw [driverCommit_quiet hsig]
    simp [OutcomeHere, hurun, hrun]

end Sys2Proof.Machine

open Sys2Proof.Machine in
/-- Settles O47: a halted run stays, and a running one keeps every clause of the invariant through `exec` and the driver. -/
theorem stepKeepsInv : Obligations.StepKeepsInv := by
  intro s t hinv h
  obtain ⟨-, rfl⟩ | ⟨hrun, -, u, hu, rfl⟩ := step_next h
  · exact hinv
  · obtain ⟨hhalted, haborted⟩ := driverCommit_outcomeHere (s := { s with snpc := s.pc + 4#32 }) hrun rfl hu
    exact
      { memoryCanonical := by simpa using exec_keeps_wf hu hinv.memoryCanonical
        zeroRegister := by simpa using exec_zeroRegister hu
        noPending := driverCommit_signal u
        haltedHere := hhalted
        abortedHere := haborted
        edgesEven := by rw [driverCommit_trace]; exact exec_keeps_edgesEven hu hinv.edgesEven }
end

section
/-! SUPPORT. What every instruction leaves unchanged, reads and decides (spec 10_state.md R21 to R26). -/

open Sys2Proof Sys2Proof.Machine

/-- Settles O15: the frame, part by part, from what an instruction does to each part of the state. -/
theorem instructionFrame : Obligations.InstructionFrame := by
  intro i s t h
  obtain ⟨haround, htrace⟩ := exec_sameAround_trace h
  refine ⟨haround, fun r h0 hr => exec_otherRegisters h h0 hr, fun a n hreq => ?_, fun hreq a => ?_, htrace⟩
  · obtain ⟨hnone, -⟩ | ⟨a', n', v, hsome, hmem⟩ := exec_mem h
    · simp [hnone] at hreq
    · cases hsome.symm.trans hreq
      exact fun b hb => hmem ▸ byteAt_memWrite_outside s.mem a b n v hb
  · obtain ⟨-, hmem⟩ | ⟨a', n', v, hsome, -⟩ := exec_mem h
    · rw [hmem]
    · simp [hreq] at hsome

/-- Settles O16: every cycle ends by zeroing x0, and until then index 0 is written and read as any other. -/
theorem registerZeroReadsZero : Obligations.RegisterZeroReadsZero := by
  refine ⟨fun i s t h => exec_zeroRegister h, fun s v => ⟨x_setX_same s 0#5 v, fun rd imm => ⟨_, exec_addi _ _ _ _, ?_⟩⟩⟩
  rw [x_setX_same]
  obtain ⟨hzero, hrd, hothers⟩ :=
    endCycle_writesOnly (x_beginCycle (s.setX 0#5 v)) rd (v + imm.signExtend 32)
  exact ⟨hzero, hrd, fun r h0 hr => (hothers r h0 hr).trans (x_setX_other s v h0.symm)⟩

/-- Settles O17: the entries that decide `dnpc` have one target for every `snpc`; the others keep `snpc`. -/
theorem onlyTransfersDecideNextPc : Obligations.OnlyTransfersDecideNextPc := by
  refine fun i s t h => ⟨fun hd => ?_, fun hd v => ?_⟩
  · have hdnpc := exec_dnpc_sequential h hd
    exact ⟨hdnpc, hdnpc.trans⟩
  · obtain ⟨target, hall⟩ := exec_dnpc_decided hd
    obtain ⟨t₀, ht₀, rfl⟩ := hall s.snpc
    cases h.symm.trans ht₀
    exact hall v

/-- Settles O20: both register files give the answer computed from the sources they share, and only the destination is
written. -/
theorem registersReadAndWritten : Obligations.RegistersReadAndWritten := by
  intro i s s' t hsrc hs' h
  obtain ⟨u, v, hans⟩ := exec_dependsOnSources h
  have h' : exec i s' = .next (endCycle (writeBack (destinationRegister i) v { u with regs := s'.regs })) := by
    rw [hs']
    exact hans s'.regs hsrc
  cases h.symm.trans (hans s.regs fun _ _ => rfl)
  refine ⟨_, h', endCycle_writeBack_regs _ v { u with regs := s.regs } s'.regs, fun rd hrd => ?_, exec_zeroRegister h',
    exec_zeroRegister h, fun r h0 hr => ⟨exec_otherRegisters h' h0 hr, exec_otherRegisters h h0 hr⟩⟩
  rw [hrd]
  exact x_endCycle_writeBack_dest _ _ rd v
end

section
/-! SUPPORT. Memory accesses said byte by byte, for every width: byte `k` of an access is at `addr + k` modulo 2^32 and
holds bits `8k + 7` to `8k` (spec 20_memory.md R45, R48). -/

namespace Sys2Proof.Machine

/-- Byte `k` of a write. -/
theorem byteAt_memWrite_inside (m : Memory) (a : Word) (n : Width) (v : Word) {k : Nat} (hk : k < n.bytes) :
    (memWrite m a n v).byteAt (a + BitVec.ofNat 32 k) = v.extractLsb' (8 * k) 8 := by
  cases n with
  | one | two | four =>
    simp only [Width.bytes] at hk
    interval_cases k <;> simp [memWrite, byteAt_setByte]

/-- The bytes of the word that four bytes hold are those four. -/
theorem extractLsb'_wordOfBytes (b0 b1 b2 b3 : Byte) :
    (wordOfBytes b0 b1 b2 b3).extractLsb' 0 8 = b0 ∧ (wordOfBytes b0 b1 b2 b3).extractLsb' 8 8 = b1 ∧
    (wordOfBytes b0 b1 b2 b3).extractLsb' 16 8 = b2 ∧ (wordOfBytes b0 b1 b2 b3).extractLsb' 24 8 = b3 := by
  unfold wordOfBytes
  refine ⟨?_, ?_, ?_, ?_⟩ <;> ext i hi <;> interval_cases i <;> simp

/-- Byte `k` of a read. -/
theorem extractLsb'_memRead (m : Memory) (a : Word) (n : Width) {k : Nat} (hk : k < n.bytes) :
    (memRead m a n).extractLsb' (8 * k) 8 = m.byteAt (a + BitVec.ofNat 32 k) := by
  cases n with
  | one =>
    obtain rfl : k = 0 := by simpa [Width.bytes] using hk
    ext i hi
    simp [memRead, hi, Nat.lt_trans hi]
  | two | four =>
    simp only [Width.bytes] at hk
    interval_cases k <;> simp [memRead, extractLsb'_wordOfBytes]

/-- A read whose bytes are those of `v` gives the low `8n` bits of `v`. -/
theorem memRead_of_bytes {m : Memory} {a v : Word} {n : Width}
    (h : ∀ k < n.bytes, m.byteAt (a + BitVec.ofNat 32 k) = v.extractLsb' (8 * k) 8) :
    memRead m a n = v &&& BitVec.ofNat 32 (2 ^ (8 * n.bytes) - 1) := by
  have h0 : m.byteAt a = v.extractLsb' 0 8 := by simpa using h 0 (by cases n <;> decide)
  cases n with
  | one =>
    simp only [memRead, h0, Width.bytes]
    ext i hi
    interval_cases i <;> simp
  | two =>
    simp only [memRead, wordOfBytes, h0, h 1 (by decide), Width.bytes]
    ext i hi
    interval_cases i <;> simp
  | four =>
    calc memRead m a .four
      _ = wordOfBytes (v.extractLsb' 0 8) (v.extractLsb' 8 8) (v.extractLsb' 16 8) (v.extractLsb' 24 8) := by
        rw [memRead, h0, h 1 (by decide), h 2 (by decide), h 3 (by decide)]
      _ = v := wordOfBytes_bytes v
      _ = v &&& BitVec.ofNat 32 (2 ^ (8 * 4) - 1) := BitVec.and_allOnes.symm

/-- A read gives back the low `8n` bits of the value last written there (20_memory.md R44, R52). -/
theorem memRead_memWrite (m : Memory) (a : Word) (n : Width) (v : Word) :
    memRead (memWrite m a n v) a n = v &&& BitVec.ofNat 32 (2 ^ (8 * n.bytes) - 1) :=
  memRead_of_bytes fun _ hk => byteAt_memWrite_inside m a n v hk

theorem memRead_memWrite_four (m : Memory) (a v : Word) : memRead (memWrite m a .four v) a .four = v :=
  (memRead_memWrite m a .four v).trans BitVec.and_allOnes

/-- A byte read inside the bytes of a write gives that byte of the value (20_memory.md R46). -/
theorem memRead_one_memWrite (m : Memory) (a : Word) (n : Width) (v : Word) {k : Nat} (hk : k < n.bytes) :
    memRead (memWrite m a n v) (a + BitVec.ofNat 32 k) .one = (v.extractLsb' (8 * k) 8).setWidth 32 :=
  congrArg (BitVec.setWidth 32) (byteAt_memWrite_inside m a n v hk)

/-- Byte `k` of a word after a byte write at offset `j` of it: the new byte at `j`, the word's own elsewhere. -/
theorem byteAt_memWrite_one_memWrite_four (m : Memory) (a w v : Word) {j k : Nat} (hj : j < 4) (hk : k < 4) :
    (memWrite (memWrite m a .four w) (a + BitVec.ofNat 32 j) .one v).byteAt (a + BitVec.ofNat 32 k) =
      if j = k then v.extractLsb' 0 8 else w.extractLsb' (8 * k) 8 := by
  split
  · next h =>
    subst h
    exact byteAt_setByte_same _ _ _
  · next h =>
    have hoff : BitVec.ofNat 32 j ≠ BitVec.ofNat 32 k := fun e => h <| by
      have hnat := congrArg BitVec.toNat e
      simp only [BitVec.toNat_ofNat] at hnat
      omega
    exact (byteAt_setByte_other _ _ (add_offset_ne a hoff)).trans (byteAt_memWrite_inside m a .four w hk)

end Sys2Proof.Machine

open Sys2Proof Sys2Proof.Machine

/-- Settles O36: the bytes read are those written, at each width, and a write leaves the others alone. -/
theorem readReturnsLastWritten : Obligations.ReadReturnsLastWritten := fun m a v =>
  ⟨memRead_memWrite_four m a v, memRead_memWrite m a .two v, memRead_memWrite m a .one v,
    fun n b => byteAt_memWrite_outside m a b n v⟩

/-- Settles O37: the two byte laws at widths 4 and 2. -/
theorem memoryIsLittleEndian : Obligations.MemoryIsLittleEndian := fun m a v _ =>
  ⟨fun hk => ⟨byteAt_memWrite_inside m a .four v hk, extractLsb'_memRead m a .four hk⟩,
    fun hk => ⟨byteAt_memWrite_inside m a .two v hk, extractLsb'_memRead m a .two hk⟩⟩

/-- Settles O38: each byte read is that byte of the word, and after the byte write the bytes are those of 0xAABB11DD. -/
theorem mixedWidthAccesses : Obligations.MixedWidthAccesses := by
  intro m a v hv
  have hbyte {k : Nat} (hk : k < 4) := memRead_one_memWrite m a .four 0xAABBCCDD#32 hk
  refine ⟨?_, hbyte (k := 1) (by decide), hbyte (k := 2) (by decide), hbyte (k := 3) (by decide), ?_⟩
  · simpa using hbyte (k := 0) (by decide)
  · refine memRead_of_bytes (n := .four) (v := 0xAABB11DD#32) fun k hk => ?_
    rw [byteAt_memWrite_one_memWrite_four m a 0xAABBCCDD#32 v (j := 1) (by decide) hk, hv]
    revert k
    decide
end

section
/-! SUPPORT. The data request of every instruction and what a refusal of it does (spec 20_memory.md R41, R42, R50). -/

namespace Sys2Proof.Machine

/-- The load or store request of an instruction: its address and width (20_memory.md R41, R42). -/
def memoryRequest (i : Instr) (s : State) : Option (Word × Width) :=
  match i with
  | .lw _ rs1 imm | .sw rs1 _ imm => some (s.x rs1 + imm.signExtend 32, .four)
  | .lbu _ rs1 imm | .sb rs1 _ imm => some (s.x rs1 + imm.signExtend 32, .one)
  | .addi _ _ _ | .seqz _ _ | .jal _ _ | .srl _ _ _ | .ret | .jalr _ _ _ | .beq _ _ _ | .auipc _ _ | .ebreak | .inv =>
    none

/-- An instruction with a request answers a next state if `MEM_VALID` accepts it, and else stops. -/
theorem exec_of_request {i : Instr} {s : State} {a : Word} {n : Width} (h : memoryRequest i s = some (a, n)) :
    ∃ t, exec i s = withAccess s a n (.next t) := by
  cases i with
  | lw rd rs1 imm => cases h; exact ⟨_, exec_lw s rd rs1 imm⟩
  | lbu rd rs1 imm => cases h; exact ⟨_, exec_lbu s rd rs1 imm⟩
  | sw rs1 rs2 imm => cases h; exact ⟨_, exec_sw s rs1 rs2 imm⟩
  | sb rs1 rs2 imm => cases h; exact ⟨_, exec_sb s rs1 rs2 imm⟩
  | addi _ _ _ | seqz _ _ | jal _ _ | srl _ _ _ | ret | jalr _ _ _ | beq _ _ _ | auipc _ _ | ebreak | inv => cases h

/-- An instruction without one always answers a next state. -/
theorem exec_of_noRequest {i : Instr} {s : State} (h : memoryRequest i s = none) : ∃ t, exec i s = .next t := by
  cases i with
  | lw _ _ _ | lbu _ _ _ | sw _ _ _ | sb _ _ _ => cases h
  | beq rs1 rs2 imm => exact ⟨_, exec_beq s rs1 rs2 imm⟩
  | addi _ _ _ | seqz _ _ | jal _ _ | srl _ _ _ | ret | jalr _ _ _ | auipc _ _ | ebreak | inv => exact ⟨_, rfl⟩

theorem exec_refusedRequest {i : Instr} {s : State} {a : Word} {n : Width} (h : memoryRequest i s = some (a, n))
    (hv : s.memValid a n = false) : exec i s = .fault (.memoryRefused s.pc a n) := by
  obtain ⟨t, ht⟩ := exec_of_request h
  rw [ht, withAccess_refused hv]

theorem exec_next_or_refusedRequest (i : Instr) (s : State) :
    (∃ t, exec i s = .next t) ∨
      ∃ a n, memoryRequest i s = some (a, n) ∧ s.memValid a n = false ∧
        exec i s = .fault (.memoryRefused s.pc a n) := by
  cases hreq : memoryRequest i s with
  | none => exact .inl (exec_of_noRequest hreq)
  | some request =>
    obtain ⟨a, n⟩ := request
    cases hv : s.memValid a n
    · exact .inr ⟨a, n, rfl, hv, exec_refusedRequest hreq hv⟩
    · obtain ⟨t, ht⟩ := exec_of_request hreq
      exact .inl ⟨t, ht.trans (withAccess_accepted hv _)⟩

/-- The four forms that make a request. -/
theorem memoryRequest_eq_some {i : Instr} {s : State} {a : Word} {n : Width} (h : memoryRequest i s = some (a, n)) :
    (∃ rd rs1 imm, i = .lw rd rs1 imm ∧ a = s.x rs1 + imm.signExtend 32 ∧ n = .four) ∨
    (∃ rd rs1 imm, i = .lbu rd rs1 imm ∧ a = s.x rs1 + imm.signExtend 32 ∧ n = .one) ∨
    (∃ rs1 rs2 imm, i = .sw rs1 rs2 imm ∧ a = s.x rs1 + imm.signExtend 32 ∧ n = .four) ∨
    (∃ rs1 rs2 imm, i = .sb rs1 rs2 imm ∧ a = s.x rs1 + imm.signExtend 32 ∧ n = .one) := by
  cases i with
  | lw rd rs1 imm => cases h; exact .inl ⟨rd, rs1, imm, rfl, rfl, rfl⟩
  | lbu rd rs1 imm => cases h; exact .inr (.inl ⟨rd, rs1, imm, rfl, rfl, rfl⟩)
  | sw rs1 rs2 imm => cases h; exact .inr (.inr (.inl ⟨rs1, rs2, imm, rfl, rfl, rfl⟩))
  | sb rs1 rs2 imm => cases h; exact .inr (.inr (.inr ⟨rs1, rs2, imm, rfl, rfl, rfl⟩))
  | addi _ _ _ | seqz _ _ | jal _ _ | srl _ _ _ | ret | jalr _ _ _ | beq _ _ _ | auipc _ _ | ebreak | inv => cases h

/-- A running step whose fetch is refused stops as any refused access does (20_memory.md R54; log 15). -/
theorem step_refusedFetch {s : State} (hrun : s.run = .running) (hv : s.memValid s.pc .four = false) :
    step s = .fault (.memoryRefused s.pc s.pc .four) := by
  unfold step fetchThen
  rw [whileRunning_running hrun, withAccess_refused hv]

/-- A running step of `sw` with both accesses accepted: the word is stored and the run goes on at `pc + 4`. -/
theorem step_sw {s : State} {rs1 rs2 : RegIdx} {imm : BitVec 12} (hrun : s.run = .running)
    (hfetch : s.memValid s.pc .four = true) (hstore : s.memValid (s.x rs1 + imm.signExtend 32) .four = true)
    (hdec : decode s.fetched = .sw rs1 rs2 imm) :
    ∃ t, step s = .next t ∧ t.run = .running ∧ t.pc = s.pc + 4#32 ∧ t.refused = s.refused ∧
      t.mem = memWrite s.mem (s.x rs1 + imm.signExtend 32) .four (s.x rs2) := by
  have hexec := (exec_sw { s with snpc := s.pc + 4#32 } rs1 rs2 imm).trans (withAccess_accepted hstore _)
  rw [step_running hrun hfetch, hdec, hexec]
  exact ⟨_, rfl, hrun, rfl, rfl, rfl⟩

end Sys2Proof.Machine

open Sys2Proof Sys2Proof.Machine

/-- Settles O23: an instruction answers a next state unless its own request is refused. -/
theorem onlyRefusedMemoryStops : Obligations.OnlyRefusedMemoryStops := by
  refine ⟨fun i s f h => ?_, fun i s r h => ?_⟩
  · obtain ⟨t, ht⟩ | ⟨a, n, hreq, hv, hfault⟩ := exec_next_or_refusedRequest i s
    · cases ht.symm.trans h
    · cases hfault.symm.trans h
      exact ⟨a, n, rfl, hv, memoryRequest_eq_some hreq⟩
  · obtain ⟨t, ht⟩ | ⟨a, n, -, -, hfault⟩ := exec_next_or_refusedRequest i s
    · cases ht.symm.trans h
    · cases hfault.symm.trans h

/-- Settles O24: each of the four forms makes its request whatever `rd` is, and the fetch is refused like any access. -/
theorem refusedAccessFaults : Obligations.RefusedAccessFaults :=
  ⟨fun _ _ _ _ hv => exec_refusedRequest rfl hv, fun _ _ _ _ hv => exec_refusedRequest rfl hv,
    fun _ _ _ _ hv => exec_refusedRequest rfl hv, fun _ _ _ _ hv => exec_refusedRequest rfl hv,
    fun _ hrun hv => step_refusedFetch hrun hv⟩

/-- Settles O43: the word is stored at the `pc` of the next step, whose fetch reads it back from memory. -/
theorem fetchSeesThePrecedingStore : Obligations.FetchSeesThePrecedingStore := by
  intro s rs1 rs2 imm hrun hrefused hdec haddr
  obtain ⟨t, hstep, htrun, htpc, htrefused, htmem⟩ :=
    step_sw hrun (memValid_of_refused_nil hrefused _ _) (memValid_of_refused_nil hrefused _ _) hdec
  have hfetched : t.fetched = s.x rs2 := by
    rw [State.fetched, htpc, htmem, haddr, memRead_memWrite_four]
  refine ⟨t, hstep, htrun, htpc, hfetched, ?_⟩
  rw [step_running htrun (memValid_of_refused_nil (htrefused.trans hrefused) _ _), hfetched]
end

section
/-! SUPPORT. Which table entry a word is decoded by (spec 30_encoding.md R63, R64, R84). -/

namespace Sys2Proof

theorem Entry.selects_iff {e : Entry} {w : Word} : e.selects w = true ↔ w &&& e.mask = e.value := beq_iff_eq

/-- The first entry that selects a word is the one decoded (R63). -/
theorem decode_of_first {w : Word} {k : Nat} (hk : k < table.length) (hs : table[k].selects w = true)
    (hfirst : ∀ j (hj : j < k), (table[j]'(Nat.lt_trans hj hk)).selects w = false) : decode w = table[k].build w := by
  have hfind : table.find? (fun e => e.selects w) = some table[k] :=
    List.find?_eq_some_iff_getElem.mpr ⟨hs, k, hk, rfl, fun j hj => by simp [hfirst j hj]⟩
  rw [decode, hfind]

/-- The catch-all selects every word (R64). -/
theorem selects_catchAll (w : Word) (h13 : 13 < table.length) : table[13].selects w = true :=
  Entry.selects_iff.mpr BitVec.and_zero

/-- Every word has a first entry that selects it, since the catch-all does. -/
theorem exists_first (w : Word) : ∃ (k : Nat) (hk : k < table.length), table[k].selects w = true ∧
    ∀ j (hj : j < k), (table[j]'(Nat.lt_trans hj hk)).selects w = false := by
  have hsome : (table.find? (fun e => e.selects w)).isSome :=
    List.find?_isSome.mpr ⟨table[13], List.getElem_mem (by decide), selects_catchAll w (by decide)⟩
  obtain ⟨e, he⟩ := Option.isSome_iff_exists.mp hsome
  obtain ⟨hs, k, hk, rfl, hfirst⟩ := List.find?_eq_some_iff_getElem.mp he
  exact ⟨k, hk, hs, fun j hj => by simpa using hfirst j hj⟩

/-- Two entries agree on the bits that both of them fix. -/
def Entry.compatible (e f : Entry) : Bool := (e.value &&& f.mask) == (f.value &&& e.mask)

/-- Entries that select one word are compatible: on the bits both fix, both values are the word's. -/
theorem compatible_of_selects {e f : Entry} {w : Word} (he : e.selects w = true) (hf : f.selects w = true) :
    e.compatible f = true := by
  rw [Entry.selects_iff] at he hf
  rw [Entry.compatible, beq_iff_eq, ← he, ← hf, BitVec.and_assoc, BitVec.and_assoc, BitVec.and_comm e.mask]

/-- The compatible pairs of the table are `ret` with `jalr`, and every entry with the catch-all. -/
theorem compatible_pairs : ∀ i j : Fin table.length, i < j → (table.get i).compatible (table.get j) = true →
    (i.val = 6 ∧ j.val = 7) ∨ j.val = 13 := by decide

/-- `ret` selects its one word. -/
theorem selects_ret {w : Word} (h6 : 6 < table.length) : table[6].selects w = true ↔ w = 0x00008067#32 := by
  rw [Entry.selects_iff]
  change w &&& BitVec.allOnes 32 = 0x00008067#32 ↔ _
  rw [BitVec.and_allOnes]

/-- Two entries that select one word are `ret` and `jalr` on `ret`'s word, or the later is the catch-all (R84). -/
theorem selects_both {w : Word} {i j : Nat} (hi : i < table.length) (hj : j < table.length) (hij : i < j)
    (hsi : table[i].selects w = true) (hsj : table[j].selects w = true) :
    (i = 6 ∧ j = 7 ∧ w = 0x00008067#32) ∨ j = 13 := by
  obtain ⟨rfl, rfl⟩ | h13 := compatible_pairs ⟨i, hi⟩ ⟨j, hj⟩ hij (compatible_of_selects hsi hsj)
  · exact .inl ⟨rfl, rfl, (selects_ret hi).mp hsi⟩
  · exact .inr h13

/-- An entry before the catch-all that selects a word is the one decoded, but for `jalr` on `ret`'s word. -/
theorem decode_of_selects {w : Word} {k : Nat} (hk : k < table.length) (hk13 : k ≠ 13)
    (hs : table[k].selects w = true) (hret : k ≠ 7 ∨ w ≠ 0x00008067#32) : decode w = table[k].build w := by
  refine decode_of_first hk hs fun j hj => Bool.eq_false_iff.mpr fun hsj => ?_
  obtain ⟨-, h7, hw⟩ | h13 := selects_both (Nat.lt_trans hj hk) hk hj hsj hs
  · exact hret.elim (· h7) (· hw)
  · exact hk13 h13

/-- Entries are told apart by their mnemonics. -/
theorem table_mnemonic_inj {e f : Entry} (he : e ∈ table) (hf : f ∈ table) (h : e.mnemonic = f.mnemonic) : e = f :=
  List.inj_on_of_nodup_map (f := Entry.mnemonic) (by decide) he hf h

theorem table_nodup : table.Nodup := List.Nodup.of_map Entry.mnemonic (by decide)

end Sys2Proof
end

section
/-! SUPPORT. The round trip between words and instructions, entry by entry (spec 30_encoding.md R76, R81). -/

namespace Sys2Proof

/-- Every instruction's word is selected by the entry of its mnemonic. -/
theorem encodeSelected (i : Instr) : Laws.EncodeSelected.Statement i := by
  cases i with
  | lw rd rs1 imm => exact Laws.EncodeSelected.lw rd rs1 imm
  | addi rd rs1 imm => exact Laws.EncodeSelected.addi rd rs1 imm
  | seqz rd rs1 => exact Laws.EncodeSelected.seqz rd rs1
  | jal rd imm => exact Laws.EncodeSelected.jal rd imm
  | sw rs1 rs2 imm => exact Laws.EncodeSelected.sw rs1 rs2 imm
  | srl rd rs1 rs2 => exact Laws.EncodeSelected.srl rd rs1 rs2
  | ret => exact Laws.EncodeSelected.ret
  | jalr rd rs1 imm => exact Laws.EncodeSelected.jalr rd rs1 imm
  | beq rs1 rs2 imm => exact Laws.EncodeSelected.beq rs1 rs2 imm
  | auipc rd imm => exact Laws.EncodeSelected.auipc rd imm
  | lbu rd rs1 imm => exact Laws.EncodeSelected.lbu rd rs1 imm
  | sb rs1 rs2 imm => exact Laws.EncodeSelected.sb rs1 rs2 imm
  | ebreak => exact Laws.EncodeSelected.ebreak
  | inv => exact Laws.EncodeSelected.inv

/-- An instruction's word is decoded by the entry of its mnemonic, the catch-all and `jalr` on `ret`'s word apart. -/
theorem decode_encode_of_mnemonic {i : Instr} {k : Nat} (hk : k < table.length) (hk13 : k ≠ 13)
    (hm : table[k].mnemonic = i.mnemonic) (hret : k ≠ 7 ∨ encode i ≠ 0x00008067#32) :
    decode (encode i) = table[k].build (encode i) := by
  obtain ⟨e, he, hmi, -, hs⟩ := encodeSelected i
  obtain rfl := table_mnemonic_inj he (List.getElem_mem hk) (hmi.trans hm.symm)
  exact decode_of_selects hk hk13 hs hret

/-- The operands of `jalr` that are not well-formed are those whose word is `ret`'s (R77, R84). -/
theorem wellFormed_jalr_iff {rd rs1 : RegIdx} {imm : BitVec 12} :
    (Instr.jalr rd rs1 imm).wellFormed = true ↔ encode (.jalr rd rs1 imm) ≠ 0x00008067#32 := by
  have hword : encode (.jalr rd rs1 imm) = 0x00008067#32 ↔ (rd = 0#5 ∧ rs1 = 1#5) ∧ imm = 0#12 := by
    constructor
    · intro hw
      exact ⟨⟨(rdField_encodeI imm rs1 rd 0b000#3 0b1100111#7).symm.trans (congrArg rdField hw),
        (rs1Field_encodeI imm rs1 rd 0b000#3 0b1100111#7).symm.trans (congrArg rs1Field hw)⟩,
        (immIField_encodeI imm rs1 rd 0b000#3 0b1100111#7).symm.trans (congrArg immIField hw)⟩
    · rintro ⟨⟨rfl, rfl⟩, rfl⟩
      decide
  rw [ne_eq, hword, Instr.wellFormed]
  simp only [Bool.not_eq_true', Bool.and_eq_false_iff, beq_eq_false_iff_ne]
  tauto

section Operands

variable (imm : BitVec 12) (rs1 rs2 rd : RegIdx) (f : BitVec 3) (o : BitVec 7)

/-- An instruction built from the fields of a word of format I has the operands encoded there. -/
theorem build_encodeI (mk : RegIdx → RegIdx → BitVec 12 → Instr) :
    mk (rdField (encodeI imm rs1 f rd o)) (rs1Field (encodeI imm rs1 f rd o)) (immIField (encodeI imm rs1 f rd o)) =
      mk rd rs1 imm := by
  rw [rdField_encodeI, rs1Field_encodeI, immIField_encodeI]

/-- An instruction built from the fields of a word of format S has the operands encoded there. -/
theorem build_encodeS (mk : RegIdx → RegIdx → BitVec 12 → Instr) :
    mk (rs1Field (encodeS imm rs2 rs1 f o)) (rs2Field (encodeS imm rs2 rs1 f o)) (immSField (encodeS imm rs2 rs1 f o)) =
      mk rs1 rs2 imm := by
  rw [rs1Field_encodeS, rs2Field_encodeS, immSField_encodeS]

end Operands

section Reencode

/-! A word selected by mask and match `v` is made of the literal fields of `v` and its own other fields. -/

variable {w v : Word} {f : BitVec 3} {o : BitVec 7}

theorem encodeI_of_funct3_mask (h : w &&& 0x0000707F#32 = v) (hf : funct3Field v = f) (ho : opcodeField v = o) :
    encodeI (immIField w) (rs1Field w) f (rdField w) o = w := by
  rw [← hf, ← ho, ← h, funct3Field_masked w (by decide), opcodeField_masked w (by decide), encodeI_fields]

theorem encodeI_of_immI_mask {imm : BitVec 12} (h : w &&& 0xFFF0707F#32 = v) (hi : immIField v = imm)
    (hf : funct3Field v = f) (ho : opcodeField v = o) : encodeI imm (rs1Field w) f (rdField w) o = w := by
  rw [← hi, ← hf, ← ho, ← h, immIField_masked w (by decide), funct3Field_masked w (by decide),
    opcodeField_masked w (by decide), encodeI_fields]

theorem encodeS_of_funct3_mask (h : w &&& 0x0000707F#32 = v) (hf : funct3Field v = f) (ho : opcodeField v = o) :
    encodeS (immSField w) (rs2Field w) (rs1Field w) f o = w := by
  rw [← hf, ← ho, ← h, funct3Field_masked w (by decide), opcodeField_masked w (by decide), encodeS_fields]

theorem encodeB_of_funct3_mask (h : w &&& 0x0000707F#32 = v) (hf : funct3Field v = f) (ho : opcodeField v = o) :
    encodeB (immBField w) (rs2Field w) (rs1Field w) f o = w := by
  rw [← hf, ← ho, ← h, funct3Field_masked w (by decide), opcodeField_masked w (by decide), encodeB_fields]

theorem encodeU_of_opcode_mask (h : w &&& 0x0000007F#32 = v) (ho : opcodeField v = o) :
    encodeU (immUField w) (rdField w) o = w := by
  rw [← ho, ← h, opcodeField_masked w (by decide), encodeU_fields]

theorem encodeJ_of_opcode_mask (h : w &&& 0x0000007F#32 = v) (ho : opcodeField v = o) :
    encodeJ (immJField w) (rdField w) o = w := by
  rw [← ho, ← h, opcodeField_masked w (by decide), encodeJ_fields]

theorem encodeR_of_funct7_mask {g : BitVec 7} (h : w &&& 0xFE00707F#32 = v) (hg : funct7Field v = g)
    (hf : funct3Field v = f) (ho : opcodeField v = o) :
    encodeR g (rs2Field w) (rs1Field w) f (rdField w) o = w := by
  rw [← hg, ← hf, ← ho, ← h, funct7Field_masked w (by decide), funct3Field_masked w (by decide),
    opcodeField_masked w (by decide), encodeR_fields]

/-- What an entry before the catch-all builds from a word it selects encodes as that word: the match gives the literal
fields, the word gives the rest. -/
theorem encode_build {k : Nat} (hk : k < table.length) (hk13 : k ≠ 13) (hs : table[k].selects w = true) :
    encode (table[k].build w) = w := by
  match k, hk, Entry.selects_iff.mp hs with
  | 0, _, hs => exact encodeI_of_funct3_mask (v := 0x00002003#32) hs rfl rfl
  | 1, _, hs => exact encodeI_of_funct3_mask (v := 0x00000013#32) hs rfl rfl
  | 2, _, hs => exact encodeI_of_immI_mask (v := 0x00103013#32) hs rfl rfl rfl
  | 3, _, hs => exact encodeJ_of_opcode_mask (v := 0x0000006F#32) hs rfl
  | 4, _, hs => exact encodeS_of_funct3_mask (v := 0x00002023#32) hs rfl rfl
  | 5, _, hs => exact encodeR_of_funct7_mask (v := 0x00005033#32) hs rfl rfl rfl
  | 7, _, hs => exact encodeI_of_funct3_mask (v := 0x00000067#32) hs rfl rfl
  | 8, _, hs => exact encodeB_of_funct3_mask (v := 0x00000063#32) hs rfl rfl
  | 9, _, hs => exact encodeU_of_opcode_mask (v := 0x00000017#32) hs rfl
  | 10, _, hs => exact encodeI_of_funct3_mask (v := 0x00004003#32) hs rfl rfl
  | 11, _, hs => exact encodeS_of_funct3_mask (v := 0x00000023#32) hs rfl rfl
  | 6, _, hs | 12, _, hs => exact hs.symm.trans BitVec.and_allOnes
  | 13, _, _ => exact absurd rfl hk13

/-- Bit 0 has no place in format B (R72). -/
theorem immBField_even (w : Word) : (immBField w).getLsbD 0 = false := by simp [immBField]

/-- What the decoder builds is well-formed: `jalr x0, x1, 0` would come from `ret`'s word alone. -/
theorem wellFormed_build {k : Nat} (hk : k < table.length) (hs : table[k].selects w = true)
    (hret : k ≠ 7 ∨ w ≠ 0x00008067#32) : (table[k].build w).wellFormed = true := by
  match k, hk, hs, hret with
  | 7, hk, hs, hret =>
    refine wellFormed_jalr_iff.mpr fun hw => hret.elim (· rfl) fun hne => hne ?_
    exact (encode_build hk (by decide) hs).symm.trans hw
  | 8, _, _, _ => exact congrArg (! ·) (immBField_even w)
  | 0, _, _, _ | 1, _, _, _ | 2, _, _, _ | 3, _, _, _ | 4, _, _, _ | 5, _, _, _ | 6, _, _, _ | 9, _, _, _ | 10, _, _, _
  | 11, _, _, _ | 12, _, _, _ | 13, _, _, _ => rfl

end Reencode

end Sys2Proof

open Sys2Proof

/-- Settles O32: the word is decoded by the instruction's own entry, whose fields give the operands back. -/
theorem decodeInvertsEncode : Obligations.DecodeInvertsEncode := by
  intro i hwf
  cases i with
  | lw rd rs1 imm =>
    rw [decode_encode_of_mnemonic (k := 0) (by decide) (by decide) rfl (.inl (by decide))]
    exact build_encodeI imm rs1 rd _ _ .lw
  | addi rd rs1 imm =>
    rw [decode_encode_of_mnemonic (k := 1) (by decide) (by decide) rfl (.inl (by decide))]
    exact build_encodeI imm rs1 rd _ _ .addi
  | seqz rd rs1 =>
    rw [decode_encode_of_mnemonic (k := 2) (by decide) (by decide) rfl (.inl (by decide))]
    exact build_encodeI 0x001 rs1 rd _ _ fun rd rs1 _ => .seqz rd rs1
  | jal rd imm =>
    rw [decode_encode_of_mnemonic (k := 3) (by decide) (by decide) rfl (.inl (by decide))]
    exact congrArg₂ Instr.jal (rdField_encodeJ ..) (immJField_encodeJ ..)
  | sw rs1 rs2 imm =>
    rw [decode_encode_of_mnemonic (k := 4) (by decide) (by decide) rfl (.inl (by decide))]
    exact build_encodeS imm rs1 rs2 _ _ .sw
  | srl rd rs1 rs2 =>
    rw [decode_encode_of_mnemonic (k := 5) (by decide) (by decide) rfl (.inl (by decide))]
    exact congr (congrArg₂ Instr.srl (rdField_encodeR ..) (rs1Field_encodeR ..)) (rs2Field_encodeR ..)
  | jalr rd rs1 imm =>
    rw [decode_encode_of_mnemonic (k := 7) (by decide) (by decide) rfl (.inr (wellFormed_jalr_iff.mp hwf))]
    exact build_encodeI imm rs1 rd _ _ .jalr
  | beq rs1 rs2 imm =>
    rw [decode_encode_of_mnemonic (k := 8) (by decide) (by decide) rfl (.inl (by decide))]
    have heven : imm.getLsbD 0 = false := by simpa [Instr.wellFormed] using hwf
    exact congr (congrArg₂ Instr.beq (rs1Field_encodeB ..) (rs2Field_encodeB ..)) (immBField_encodeB _ _ _ _ _ heven)
  | auipc rd imm =>
    rw [decode_encode_of_mnemonic (k := 9) (by decide) (by decide) rfl (.inl (by decide))]
    exact congrArg₂ Instr.auipc (rdField_encodeU ..) (immUField_encodeU ..)
  | lbu rd rs1 imm =>
    rw [decode_encode_of_mnemonic (k := 10) (by decide) (by decide) rfl (.inl (by decide))]
    exact build_encodeI imm rs1 rd _ _ .lbu
  | sb rs1 rs2 imm =>
    rw [decode_encode_of_mnemonic (k := 11) (by decide) (by decide) rfl (.inl (by decide))]
    exact build_encodeS imm rs1 rs2 _ _ .sb
  | ret | ebreak | inv => decide

/-- Settles O33: the entry decoded builds from the word's own fields, which with its match make up the word. -/
theorem encodeInvertsDecode : Obligations.EncodeInvertsDecode := by
  intro w
  obtain ⟨k, hk, hs, hfirst⟩ := exists_first w
  rw [decode_of_first hk hs hfirst]
  refine ⟨wellFormed_build hk hs ?_, fun hinv => encode_build hk ?_ hs⟩
  · refine not_and_or.mp ?_
    rintro ⟨rfl, rfl⟩
    exact Bool.false_ne_true ((hfirst 6 (by decide)).symm.trans ((selects_ret (by decide)).mpr rfl))
  · rintro rfl
    exact hinv rfl
end

section
/-! SUPPORT. The order of the table: which orders decode alike (spec 30_encoding.md R63, R84). -/

namespace Sys2Proof

/-- Where the first hit of a list without repeats is known, nothing before it is a hit. -/
theorem find?_none_before {α : Type} {p : α → Bool} {l r : List α} {x : α} (hnodup : (l ++ x :: r).Nodup)
    (hfind : (l ++ x :: r).find? p = some x) : ∀ y ∈ l, p y = false := by
  intro y hy
  by_contra hpy
  obtain ⟨z, hz⟩ := Option.isSome_iff_exists.mp (List.find?_isSome.mpr ⟨y, hy, Bool.not_eq_false _ ▸ hpy⟩)
  rw [List.find?_append, hz] at hfind
  obtain rfl : z = x := Option.some.inj hfind
  exact List.disjoint_of_nodup_append hnodup (List.mem_of_find?_eq_some hz) List.mem_cons_self

/-- The catch-all is decoded by where no other entry selects the word (R64). -/
theorem decode_of_none_selects {w : Word} (h13 : 13 < table.length)
    (hnone : ∀ e ∈ table, e ≠ table[13] → e.selects w = false) : decode w = table[13].build w :=
  decode_of_first h13 (selects_catchAll w h13) fun _ hj =>
    hnone _ (List.getElem_mem _) fun heq => Nat.ne_of_lt hj ((List.Nodup.getElem_inj_iff table_nodup).mp heq)

end Sys2Proof

open Sys2Proof

/-- Settles O27: the decoder finds the first entry that selects the word. -/
theorem firstMatchWins : Obligations.FirstMatchWins := fun _ _ hk hs hfirst => decode_of_first hk hs hfirst

/-- Settles O28: two entries that select one word agree where both are literal, which rules out all other pairs. -/
theorem onlyRetAndCatchAllOverlap : Obligations.OnlyRetAndCatchAllOverlap := by
  refine ⟨fun w i j hi hj hij hsi hsj => selects_both hi hj hij hsi hsj,
    fun w h6 h7 h13 => ⟨selects_catchAll w h13, fun hs => ?_⟩⟩
  rw [(selects_ret h6).mp hs]
  exact Entry.selects_iff.mpr (by decide : 0x00008067#32 &&& 0x0000707F#32 = 0x00000067#32)

/-- Settles O29: the first hit of the other order is an entry that decoding takes, or `jalr` after a `ret` that does not
hit, or the catch-all after no hit. -/
theorem otherOrderIsUnobservable : Obligations.OtherOrderIsUnobservable := by
  intro h6 h7 h13 a b c hperm w
  have hnodup := hperm.nodup_iff.mpr table_nodup
  have hmem {e : Entry} := hperm.mem_iff (a := e)
  have hsome := (List.find?_isSome (p := (Entry.selects · w))).mpr
    ⟨table[13], hmem.mpr (List.getElem_mem h13), selects_catchAll w h13⟩
  obtain ⟨e, he⟩ := Option.isSome_iff_exists.mp hsome
  refine ⟨e, he, ?_⟩
  have hs : e.selects w = true := List.find?_some (p := (Entry.selects · w)) he
  obtain ⟨k, hk, rfl⟩ := List.getElem_of_mem (hmem.mp (List.mem_of_find?_eq_some he))
  by_cases hk13 : k = 13
  · subst hk13
    refine (decode_of_none_selects h13 fun f hf hne => ?_).symm
    refine find?_none_before (l := a ++ table[6] :: (b ++ table[7] :: c)) (r := [])
      (by simpa using hnodup) (by simpa using he) f ?_
    simpa [hne] using hmem.mpr hf
  · refine (decode_of_selects hk hk13 hs (not_and_or.mp ?_)).symm
    rintro ⟨rfl, hw⟩
    have hbefore := find?_none_before (l := a ++ table[6] :: b) (by simpa using hnodup) (by simpa using he)
    exact Bool.false_ne_true ((hbefore table[6] (by simp)).symm.trans ((selects_ret h6).mpr hw))
end

section
/-! SUPPORT. The words that encode an instruction other than the catch-all are those of the field conditions (spec
30_encoding.md R78). -/

namespace Sys2Proof

section LiteralFields

variable (imm : BitVec 12) (rs1 rs2 rd : RegIdx) (f : BitVec 3) (g o : BitVec 7)

theorem opcodeField_encodeI : opcodeField (encodeI imm rs1 f rd o) = o := by
  unfold opcodeField encodeI; ext i hi; interval_cases i <;> simp

theorem funct3Field_encodeI : funct3Field (encodeI imm rs1 f rd o) = f := by
  unfold funct3Field encodeI; ext i hi; interval_cases i <;> simp

theorem opcodeField_encodeS : opcodeField (encodeS imm rs2 rs1 f o) = o := by
  unfold opcodeField encodeS; ext i hi; interval_cases i <;> simp

theorem funct3Field_encodeS : funct3Field (encodeS imm rs2 rs1 f o) = f := by
  unfold funct3Field encodeS; ext i hi; interval_cases i <;> simp

theorem opcodeField_encodeB (off : BitVec 13) : opcodeField (encodeB off rs2 rs1 f o) = o := by
  unfold opcodeField encodeB; ext i hi; interval_cases i <;> simp

theorem funct3Field_encodeB (off : BitVec 13) : funct3Field (encodeB off rs2 rs1 f o) = f := by
  unfold funct3Field encodeB; ext i hi; interval_cases i <;> simp

theorem opcodeField_encodeU (up : BitVec 20) : opcodeField (encodeU up rd o) = o := by
  unfold opcodeField encodeU; ext i hi; interval_cases i <;> simp

theorem opcodeField_encodeJ (hw : BitVec 20) : opcodeField (encodeJ hw rd o) = o := by
  unfold opcodeField encodeJ; ext i hi; interval_cases i <;> simp

theorem opcodeField_encodeR : opcodeField (encodeR g rs2 rs1 f rd o) = o := by
  unfold opcodeField encodeR; ext i hi; interval_cases i <;> simp

theorem funct3Field_encodeR : funct3Field (encodeR g rs2 rs1 f rd o) = f := by
  unfold funct3Field encodeR; ext i hi; interval_cases i <;> simp

theorem funct7Field_encodeR : funct7Field (encodeR g rs2 rs1 f rd o) = g := by
  unfold funct7Field encodeR; ext i hi; interval_cases i <;> simp

end LiteralFields

/-- The word of every instruction but the catch-all meets its row of R78's conditions. -/
theorem validWord_encode {i : Instr} (hi : i ≠ .inv) : validWord (encode i) = true := by
  cases i with
  | lw _ _ _ | addi _ _ _ | seqz _ _ | jalr _ _ _ | lbu _ _ _ =>
    simp [validWord, encode, opcodeField_encodeI, funct3Field_encodeI, immIField_encodeI]
  | sw _ _ _ | sb _ _ _ => simp [validWord, encode, opcodeField_encodeS, funct3Field_encodeS]
  | beq _ _ _ => simp [validWord, encode, opcodeField_encodeB, funct3Field_encodeB]
  | srl _ _ _ => simp [validWord, encode, opcodeField_encodeR, funct3Field_encodeR, funct7Field_encodeR]
  | jal _ _ => simp [validWord, encode, opcodeField_encodeJ]
  | auipc _ _ => simp [validWord, encode, opcodeField_encodeU]
  | ret | ebreak => decide
  | inv => exact absurd rfl hi

/-- A word that meets one of R78's conditions is the word of an instruction with its fields. -/
theorem exists_encode_of_validWord {w : Word} (h : validWord w = true) : ∃ i, i ≠ .inv ∧ encode i = w := by
  have hI := encodeI_fields w
  have hS := encodeS_fields w
  have hB := encodeB_fields w
  have hR := encodeR_fields w
  simp only [validWord, Bool.or_eq_true, Bool.and_eq_true, beq_iff_eq, or_assoc, and_assoc] at h
  rcases h with ⟨ho, hf | hf⟩ | ⟨ho, hf | ⟨hf, hi⟩⟩ | ho | ⟨ho, hf | hf⟩ | ⟨ho, hf, hg⟩ | ⟨ho, hf⟩ | ⟨ho, hf⟩ | ho | rfl
  · rw [ho, hf] at hI; exact ⟨.lw _ _ _, nofun, hI⟩
  · rw [ho, hf] at hI; exact ⟨.lbu _ _ _, nofun, hI⟩
  · rw [ho, hf] at hI; exact ⟨.addi _ _ _, nofun, hI⟩
  · rw [ho, hf, hi] at hI; exact ⟨.seqz _ _, nofun, hI⟩
  · exact ⟨.auipc _ _, nofun, ho ▸ encodeU_fields w⟩
  · rw [ho, hf] at hS; exact ⟨.sw _ _ _, nofun, hS⟩
  · rw [ho, hf] at hS; exact ⟨.sb _ _ _, nofun, hS⟩
  · rw [ho, hf, hg] at hR; exact ⟨.srl _ _ _, nofun, hR⟩
  · rw [ho, hf] at hB; exact ⟨.beq _ _ _, nofun, hB⟩
  · rw [ho, hf] at hI; exact ⟨.jalr _ _ _, nofun, hI⟩
  · exact ⟨.jal _ _, nofun, ho ▸ encodeJ_fields w⟩
  · exact ⟨.ebreak, nofun, by decide⟩

/-- An entry before the catch-all builds an instruction that is not the catch-all's. -/
theorem build_ne_inv {k : Nat} (hk : k < table.length) (hk13 : k ≠ 13) (w : Word) : table[k].build w ≠ .inv := by
  match k, hk with
  | 0, _ | 1, _ | 2, _ | 3, _ | 4, _ | 5, _ | 6, _ | 7, _ | 8, _ | 9, _ | 10, _ | 11, _ | 12, _ => exact nofun
  | 13, _ => exact absurd rfl hk13

theorem mnemonic_ne_inv {i : Instr} (hi : i ≠ .inv) : i.mnemonic ≠ "inv" := by
  cases i with
  | inv => exact absurd rfl hi
  | lw _ _ _ | addi _ _ _ | seqz _ _ | jal _ _ | sw _ _ _ | srl _ _ _ | ret | jalr _ _ _ | beq _ _ _ | auipc _ _
  | lbu _ _ _ | sb _ _ _ | ebreak => simp [Instr.mnemonic]

/-- The word of an instruction but the catch-all's is not decoded by the catch-all, since its own entry comes before. -/
theorem decode_encode_ne_inv {i : Instr} (hi : i ≠ .inv) : decode (encode i) ≠ .inv := by
  intro hinv
  obtain ⟨e, he, hm, -, hs⟩ := encodeSelected i
  obtain ⟨j, hj, rfl⟩ := List.getElem_of_mem he
  obtain ⟨k, hk, hsk, hfirst⟩ := exists_first (encode i)
  have hk13 : k = 13 := by
    by_contra hk13
    exact build_ne_inv hk hk13 _ ((decode_of_first hk hsk hfirst).symm.trans hinv)
  subst hk13
  have hj13 : j ≠ 13 := by
    rintro rfl
    exact mnemonic_ne_inv hi hm.symm
  have hlt : j < 13 := lt_of_le_of_ne (Nat.le_of_lt_succ hj) hj13
  exact Bool.false_ne_true ((hfirst j hlt).symm.trans hs)

/-- The words that are not the catch-all's are the words of the other instructions. -/
theorem decode_ne_inv_iff {w : Word} : decode w ≠ .inv ↔ ∃ i, i ≠ .inv ∧ encode i = w := by
  constructor
  · intro h
    exact ⟨decode w, h, (encodeInvertsDecode w).2 h⟩
  · rintro ⟨i, hi, rfl⟩
    exact decode_encode_ne_inv hi

end Sys2Proof

open Sys2Proof

/-- Settles O30: both sides say that the word encodes no instruction but the catch-all. -/
theorem invalidWordsByField : Obligations.InvalidWordsByField := by
  intro w
  have hvalid : validWord w = true ↔ ∃ i, i ≠ .inv ∧ encode i = w :=
    ⟨exists_encode_of_validWord, fun ⟨i, hi, hw⟩ => hw ▸ validWord_encode hi⟩
  rw [← not_iff_not, Bool.not_eq_false, hvalid]
  exact decode_ne_inv_iff
end

section
/-! SUPPORT. The format-aware decoder against the fields an instruction keeps (spec 30_encoding.md R68 to R74). -/

namespace Sys2Proof.Machine

variable (w : Word) (s : State)

/-! The immediates sign-extended, as the shifts and ors build them from the word. -/

theorem signExtend_immSField : (immSField w).signExtend 32 =
    ((w.extractLsb' 25 7).signExtend 32 <<< 5) ||| (w.extractLsb' 7 5).setWidth 32 := by
  unfold immSField; ext i hi; interval_cases i <;> simp [BitVec.getElem_signExtend, BitVec.msb_setWidth]

theorem signExtend_immJField : (immJField w).signExtend 32 =
    (((((w.extractLsb' 31 1).signExtend 32 <<< 8) ||| (w.extractLsb' 12 8).setWidth 32) <<< 1 |||
      (w.extractLsb' 20 1).setWidth 32) <<< 10) ||| (w.extractLsb' 21 10).setWidth 32 := by
  unfold immJField; ext i hi; interval_cases i <;> simp [BitVec.getElem_signExtend, BitVec.msb_setWidth]

theorem signExtend_immBField : (immBField w).signExtend 32 =
    ((w.extractLsb' 31 1).signExtend 32 <<< 12) ||| ((w.extractLsb' 7 1).setWidth 32 <<< 11) |||
      ((w.extractLsb' 25 6).setWidth 32 <<< 5) ||| ((w.extractLsb' 8 4).setWidth 32 <<< 1) := by
  unfold immBField; ext i hi; interval_cases i <;> simp [BitVec.getElem_signExtend]

/-! Where a format has immediate bits in `inst[11:7]`, the instruction's immediate keeps them (R70, R72). -/

theorem rdField_of_immSField : (immSField w).extractLsb' 0 5 = rdField w := by
  unfold immSField rdField; ext i hi; interval_cases i <;> simp

theorem rdField_of_immBField :
    (((immBField w).extractLsb' 1 4).setWidth 5 <<< 1) ||| ((immBField w).extractLsb' 11 1).setWidth 5 = rdField w := by
  unfold immBField rdField; ext i hi; interval_cases i <;> simp

theorem decodeOperands_S : decodeOperands .S w s = operandsS (rs1Field w) (rs2Field w) (immSField w) s := by
  rw [operandsS, rdField_of_immSField, signExtend_immSField]
  rfl

theorem decodeOperands_J : decodeOperands .J w s = operandsJ (rdField w) (immJField w) := by
  rw [operandsJ, signExtend_immJField]
  rfl

theorem decodeOperands_B : decodeOperands .B w s = operandsB (rs1Field w) (rs2Field w) (immBField w) s := by
  rw [operandsB, rdField_of_immBField, signExtend_immBField]
  rfl

/-- Every entry's format reads from a selected word the operands of the instruction the entry builds. -/
theorem decodeOperands_build {w : Word} {k : Nat} (hk : k < table.length) (hs : table[k].selects w = true) :
    decodeOperands (table[k].build w).format w s = instrOperands (table[k].build w) s := by
  match k, hk, hs with
  | 0, _, _ | 1, _, _ | 5, _, _ | 7, _, _ | 9, _, _ | 10, _, _ | 12, _, _ | 13, _, _ => rfl
  | 2, hk, hs =>
    have himm : 1#12 = immIField w :=
      (immIField_encodeI ..).symm.trans (congrArg immIField (encode_build hk (by decide) hs))
    exact congrArg (operandsI (rdField w) (rs1Field w) · s) himm.symm
  | 3, _, _ => exact decodeOperands_J w s
  | 4, _, _ | 11, _, _ => exact decodeOperands_S w s
  | 8, _, _ => exact decodeOperands_B w s
  | 6, hk, hs =>
    rw [(selects_ret hk).mp hs]
    rfl

end Sys2Proof.Machine

open Sys2Proof Sys2Proof.Machine

/-- Settles O31: by the entry that is decoded, whose format reads the fields its instruction keeps. -/
theorem operandDecoderAgrees : Obligations.OperandDecoderAgrees := by
  intro w s
  obtain ⟨k, hk, hs, hfirst⟩ := exists_first w
  rw [decode_of_first hk hs hfirst]
  exact decodeOperands_build s hk hs
end

section
/-! SUPPORT. Templates said bit by bit (spec 30_encoding.md R61, R62). -/

namespace Sys2Proof

/-- The character of a template that stands for bit `i` of the word: the last one for bit 0 (R62). -/
def templateChar (bits : List TemplateBit) (i : Nat) : Option TemplateBit := bits.reverse[i]?

@[simp] theorem templateChar_nil (i : Nat) : templateChar [] i = none := rfl

@[simp] theorem templateChar_length (rest : List TemplateBit) : templateChar rest rest.length = none := by
  simp [templateChar]

@[simp] theorem templateChar_cons_length (b : TemplateBit) (rest : List TemplateBit) :
    templateChar (b :: rest) rest.length = some b := by
  simp [templateChar]

theorem templateChar_cons_ne (b : TemplateBit) {rest : List TemplateBit} {i : Nat} (hi : i ≠ rest.length) :
    templateChar (b :: rest) i = templateChar rest i := by
  rcases Nat.lt_or_gt_of_ne hi with h | h
  · simp [templateChar, List.getElem?_append_left, h]
  · simp [templateChar, h, Nat.le_of_lt h]

/-- In a template of 32 characters the first one stands for bit 31. -/
theorem templateChar_of_length {bits : List TemplateBit} (h : bits.length = 32) {i : Nat} (hi : i < 32) :
    templateChar bits i = bits[31 - i]? := by
  rw [templateChar, List.getElem?_reverse (h ▸ hi), h]

/-- In a template of 32 characters each bit of the word has a character: a wildcard or a literal. -/
theorem templateChar_ne_any {bits : List TemplateBit} (h : bits.length = 32) {i : Nat} (hi : i < 32) :
    templateChar bits i ≠ some .any ↔ templateChar bits i = some .zero ∨ templateChar bits i = some .one := by
  obtain ⟨b, hb⟩ : ∃ b, templateChar bits i = some b :=
    ⟨_, List.getElem?_eq_getElem (by rw [List.length_reverse, h]; exact hi)⟩
  rw [hb]
  cases b with
  | any | zero | one => simp

theorem templateMatches_cons (b : TemplateBit) (rest : List TemplateBit) (w : Word) :
    templateMatches (b :: rest) w = true ↔
      ((b = .zero → w.getLsbD rest.length = false) ∧ (b = .one → w.getLsbD rest.length = true)) ∧
        templateMatches rest w = true := by
  cases b with
  | any | zero | one => simp [templateMatches]

/-- Matching is agreement with the literal characters (R62). -/
theorem templateMatches_iff (bits : List TemplateBit) (w : Word) : templateMatches bits w = true ↔
    ∀ i, (templateChar bits i = some .zero → w.getLsbD i = false) ∧
      (templateChar bits i = some .one → w.getLsbD i = true) := by
  induction bits with
  | nil => simp [templateMatches]
  | cons b rest ih =>
    rw [templateMatches_cons, ih]
    constructor
    · rintro ⟨hb, hrest⟩ i
      by_cases hi : i = rest.length
      · subst hi
        simpa using hb
      · rw [templateChar_cons_ne b hi]
        exact hrest i
    · intro h
      refine ⟨by simpa using h rest.length, fun i => ?_⟩
      by_cases hi : i = rest.length
      · simp [hi]
      · rw [← templateChar_cons_ne b hi]
        exact h i

/-- `mask` has 1 exactly at the literal characters (R62). -/
theorem getLsbD_templateMask {bits : List TemplateBit} (h : bits.length ≤ 32) (i : Nat) :
    (templateMask bits).getLsbD i = true ↔ templateChar bits i = some .zero ∨ templateChar bits i = some .one := by
  induction bits with
  | nil => simp [templateMask]
  | cons b rest ih =>
    have hlen : rest.length < 32 := h
    have ih := ih (Nat.le_of_lt hlen)
    by_cases hi : i = rest.length
    · subst hi
      cases b with
      | any => rw [templateMask, ih]; simp
      | zero | one => simp [templateMask, hlen]
    · rw [templateChar_cons_ne b hi, ← ih]
      cases b with
      | any | zero | one => simp [templateMask, BitVec.getLsbD_twoPow, Ne.symm hi]

/-- `match` has 1 exactly at the characters `1` (R62). -/
theorem getLsbD_templateValue {bits : List TemplateBit} (h : bits.length ≤ 32) (i : Nat) :
    (templateValue bits).getLsbD i = true ↔ templateChar bits i = some .one := by
  induction bits with
  | nil => simp [templateValue]
  | cons b rest ih =>
    have hlen : rest.length < 32 := h
    have ih := ih (Nat.le_of_lt hlen)
    by_cases hi : i = rest.length
    · subst hi
      cases b with
      | any | zero => rw [templateValue, ih]; simp
      | one => simp [templateValue, hlen]
    · rw [templateChar_cons_ne b hi, ← ih]
      cases b with
      | any | zero | one => simp [templateValue, BitVec.getLsbD_twoPow, Ne.symm hi]

/-- The word has the bits of `match` under `mask` exactly where it agrees with the literal characters (R62). -/
theorem and_templateMask_iff {bits : List TemplateBit} (h : bits.length ≤ 32) (w : Word) :
    w &&& templateMask bits = templateValue bits ↔ templateMatches bits w = true := by
  have hbit (i : Nat) : ((w &&& templateMask bits).getLsbD i = (templateValue bits).getLsbD i) ↔
      (templateChar bits i = some .zero → w.getLsbD i = false) ∧
        (templateChar bits i = some .one → w.getLsbD i = true) := by
    rw [Bool.eq_iff_iff, BitVec.getLsbD_and, Bool.and_eq_true, getLsbD_templateMask h, getLsbD_templateValue h]
    rcases templateChar bits i with _ | _ | _ | _ <;> simp
  rw [templateMatches_iff]
  exact ⟨fun heq i => (hbit i).mp (heq ▸ rfl), fun hall => BitVec.eq_of_getLsbD_eq fun i _ => (hbit i).mpr (hall i)⟩

theorem length_of_parseTemplate {template : String} {bits : List TemplateBit} (h : parseTemplate template = some bits) :
    bits.length = 32 := by
  unfold parseTemplate at h
  split at h
  · split at h
    · cases h
      assumption
    · cases h
  · cases h

/-- Every template of the table parses, and compiles to its entry's mask and match. -/
theorem table_compiles : ∀ e ∈ table,
    (parseTemplate e.template).map (fun bits => (templateMask bits, templateValue bits)) = some (e.mask, e.value) := by
  decide

end Sys2Proof

open Sys2Proof

/-- Settles O25: each of the three forms says which bits have a literal character, and which. -/
theorem templateIsMaskAndMatch : Obligations.TemplateIsMaskAndMatch := by
  intro bits w hlen
  have hmatch (v : Word) : templateMatches bits v = true ↔ ∀ i, i < 32 →
      (bits[31 - i]? = some .zero → v.getLsbD i = false) ∧ (bits[31 - i]? = some .one → v.getLsbD i = true) := by
    rw [templateMatches_iff]
    constructor
    · intro h i hi
      rw [← templateChar_of_length hlen hi]
      exact h i
    · intro h i
      by_cases hi : i < 32
      · rw [templateChar_of_length hlen hi]
        exact h i hi
      · simp [templateChar, hlen, hi]
  refine ⟨hmatch w, ?_, fun i hi => ⟨?_, ?_⟩, fun w' hw => ?_⟩
  · rw [Bool.eq_iff_iff, beq_iff_eq, and_templateMask_iff hlen.le]
  · rw [getLsbD_templateMask hlen.le, ← templateChar_of_length hlen hi, templateChar_ne_any hlen hi]
  · rw [getLsbD_templateValue hlen.le, templateChar_of_length hlen hi]
  · rw [Bool.eq_iff_iff, hmatch, hmatch]
    refine forall₂_congr fun i hi => and_congr (imp_congr_right fun hc => ?_) (imp_congr_right fun hc => ?_)
    · rw [hw i hi (by simp [hc])]
    · rw [hw i hi (by simp [hc])]

/-- Settles O26: the templates parsed and compiled, entry by entry. -/
theorem tableIsWellFormed : Obligations.TableIsWellFormed := by
  refine ⟨fun e he => ?_, rfl, table[13], rfl, rfl, by decide⟩
  obtain ⟨bits, hparse, hcompiled⟩ := Option.map_eq_some_iff.mp (table_compiles e he)
  obtain ⟨hmask, hvalue⟩ := Prod.mk.inj hcompiled
  exact ⟨bits, hparse, length_of_parseTemplate hparse, hmask, hvalue⟩
end

section
/-! SUPPORT. The spec's own words (spec 95_test_vectors.md V1, V2, V5). -/

/-- Settles O34: fixed words, each decoded through the table. -/
theorem specWordsDecode : Obligations.SpecWordsDecode := by
  unfold Obligations.SpecWordsDecode
  decide
end

section
/-! SUPPORT. A step, from the four fetched bytes to the driver's commit (spec 20_memory.md R54; 40_execute_cycle.md
R111). -/

namespace Sys2Proof.Machine

/-- Decoding the four bytes at `pc` is decoding the word fetched from there (20_memory.md R45, R54). -/
theorem decodeBytes_fetched (s : State) :
    decodeBytes [s.mem.byteAt s.pc, s.mem.byteAt (s.pc + 1#32), s.mem.byteAt (s.pc + 2#32),
      s.mem.byteAt (s.pc + 3#32)] = .ok (decode s.fetched, []) := rfl

end Sys2Proof.Machine

open Sys2Proof Sys2Proof.Machine

/-- Settles O39: the four bytes are the word the step decodes, and the driver reacts to what `exec` answers and, after a
completed cycle, to the signal it left. -/
theorem stepRunsDecodedInstruction : Obligations.StepRunsDecodedInstruction := by
  intro s i hrun hvalid hbytes
  have hdecode : decode s.fetched = i := by
    rw [decodeBytes_fetched] at hbytes
    cases hbytes
    rfl
  rw [step_running hrun hvalid, hdecode]
  cases exec i { s with snpc := s.pc + 4#32 } with
  | next t =>
    rw [drive]
    match hsignal : t.signal with
    | none => simp only [hsignal, driverCommit_quiet hsignal]
    | some (.trap p v) => simp only [hsignal, driverCommit_trap hsignal]
    | some (.invalidInstruction p) => simp only [hsignal, driverCommit_invalid hsignal]
  | fault f => rfl
  | refused r => rfl
end

section
/-! SUPPORT. The integer computational instructions: what writing one register leaves of the state, and the written
values said over numbers (spec 41_integer_compute.md R120 to R127). -/

namespace Sys2Proof

/-- A word with an entry's bits under its mask is decoded by that entry, `jalr` and the catch-all apart. -/
theorem decode_of_mask {w : Word} {k : Nat} (hk : k < table.length) (hk13 : k ≠ 13) (hk7 : k ≠ 7)
    (h : w &&& table[k].mask = table[k].value) : decode w = table[k].build w :=
  decode_of_selects hk hk13 (Entry.selects_iff.mpr h) (.inl hk7)

/-- Only words with 1 in bits 31 to 20 decode to `seqz`: each is the word of its own decoding (R121). -/
theorem immIField_of_decode_seqz {w : Word} {rd rs1 : RegIdx} (h : decode w = .seqz rd rs1) : immIField w = 1#12 := by
  have hword : encode (.seqz rd rs1) = w := h ▸ (encodeInvertsDecode w).2 (by simp [h])
  rw [← hword]
  exact immIField_encodeI ..

end Sys2Proof

namespace Sys2Proof.Machine

/-- A cycle whose action only writes a register goes on at `snpc`, raises and reports nothing, and changes nothing
else. -/
theorem registerCycle_frame (s : State) (rd : RegIdx) (v : Word) :
    let t := endCycle ((beginCycle s).setX rd v)
    t.dnpc = s.snpc ∧ NoEvent s t ∧ SameMemory s t ∧ SameAround s t :=
  ⟨rfl, ⟨rfl, rfl⟩, fun _ => rfl, rfl, rfl, rfl, rfl⟩

/-- After such a cycle `rd` holds the written value, and no other register but x0 has changed. -/
theorem registerCycle_writesOnly (s : State) (rd : RegIdx) {v v' : Word} (h : v = v') :
    WritesOnly s (endCycle ((beginCycle s).setX rd v)) rd v' :=
  h ▸ endCycle_writesOnly (x_beginCycle s) rd v

/-! ### The written values -/

/-- `src1 <u 1` over numbers (R121, R125). -/
theorem conditionWord_belowOne (a : Word) : conditionWord (belowOne a) = if a.toNat < 1 then 1#32 else 0#32 := by
  simp [conditionWord, belowOne, BitVec.ult]

/-- Zero is the only unsigned value below 1, so `seqz` tests for zero (R121). -/
theorem conditionWord_belowOne_eq_zeroTest (a : Word) :
    conditionWord (belowOne a) = if a = 0#32 then 1#32 else 0#32 := by
  have hzero : a.toNat < 1 ↔ a = 0#32 := by rw [Nat.lt_one_iff, ← BitVec.toNat_inj, BitVec.toNat_zero]
  rw [conditionWord_belowOne, if_congr hzero rfl rfl]

/-- `src2 & 31` is the remainder modulo 32 (R122, R127). -/
theorem shiftAmount_eq_mod (b : Word) : shiftAmount b = b.toNat % 32 :=
  Nat.and_two_pow_sub_one_eq_mod b.toNat 5

/-- A logical right shift divides the unsigned value by a power of 2 (R122). -/
theorem ushiftRight_shiftAmount (a b : Word) :
    a >>> shiftAmount b = BitVec.ofNat 32 (a.toNat / 2 ^ (b.toNat % 32)) := by
  rw [shiftAmount_eq_mod, ← Nat.shiftRight_eq_div_pow, ← BitVec.toNat_ushiftRight, BitVec.ofNat_toNat,
    BitVec.setWidth_eq]

/-- Format U's immediate: the copies of the sign bit are shifted out (R69, R123). -/
theorem signExtend_shiftLeft_twelve (imm : BitVec 20) :
    imm.signExtend 32 <<< 12 = BitVec.ofNat 32 (imm.toNat * 4096) := by
  apply BitVec.eq_of_toNat_eq
  rw [BitVec.toNat_shiftLeft, BitVec.toNat_signExtend, Nat.shiftLeft_eq, BitVec.toNat_ofNat, BitVec.toNat_setWidth]
  split <;> omega

end Sys2Proof.Machine

open Sys2Proof Sys2Proof.Machine

/-- Settles O1: the word is entry 1's, and the cycle writes the sum to `rd` and nothing else. -/
theorem addiWritesSum : Obligations.AddiWritesSum :=
  ⟨fun _ h => decode_of_mask (k := 1) (by decide) (by decide) (by decide) h,
    fun rd rs1 imm s => ⟨_, exec_addi s rd rs1 imm, registerCycle_writesOnly s rd rfl, registerCycle_frame s rd _⟩⟩

/-- Settles O2: the word is entry 2's, the only one to build `seqz`, and both tests say that `src1` is zero. -/
theorem seqzWritesZeroTest : Obligations.SeqzWritesZeroTest :=
  ⟨fun _ h => decode_of_mask (k := 2) (by decide) (by decide) (by decide) h,
    fun _ _ _ h => immIField_of_decode_seqz h,
    fun rd rs1 s => ⟨_, exec_seqz s rd rs1, registerCycle_writesOnly s rd (conditionWord_belowOne (s.x rs1)),
      registerCycle_writesOnly s rd (conditionWord_belowOne_eq_zeroTest (s.x rs1)), registerCycle_frame s rd _⟩⟩

/-- Settles O3: the word is entry 5's, and the shift by the low five bits is a division. -/
theorem srlShiftsByLowFiveBits : Obligations.SrlShiftsByLowFiveBits :=
  ⟨fun _ h => decode_of_mask (k := 5) (by decide) (by decide) (by decide) h,
    fun rd rs1 rs2 s => ⟨_, exec_srl s rd rs1 rs2,
      registerCycle_writesOnly s rd (ushiftRight_shiftAmount (s.x rs1) (s.x rs2)), registerCycle_frame s rd _⟩⟩

/-- Settles O4: the word is entry 9's, and the shifted immediate is `inst[31:12]` times 4096. -/
theorem auipcAddsUpperImmediate : Obligations.AuipcAddsUpperImmediate :=
  ⟨fun _ h => decode_of_mask (k := 9) (by decide) (by decide) (by decide) h,
    fun rd imm s => ⟨_, exec_auipc s rd imm,
      registerCycle_writesOnly s rd (congrArg (s.pc + ·) (signExtend_shiftLeft_twelve imm)),
      registerCycle_frame s rd _⟩⟩
end

section
/-! SUPPORT. The loads and stores: what an accepted request answers, and what writing memory leaves of the state (spec
42_loads_stores.md R140 to R145). -/

namespace Sys2Proof.Machine

/-- A one-byte read is the byte's unsigned value: bits 31 to 8 are zero (20_memory.md R40; 42_loads_stores.md R141). -/
theorem memRead_one_eq_ofNat (m : Memory) (a : Word) : memRead m a .one = BitVec.ofNat 32 (m.byteAt a).toNat :=
  (BitVec.ofNat_toNat 32 (m.byteAt a)).symm

/-- A cycle whose action only writes memory writes no register, goes on at `snpc`, raises and reports nothing, and
changes nothing else. -/
theorem memoryCycle_frame (s : State) (m : Memory) :
    let t := endCycle { beginCycle s with mem := m }
    WritesNoRegister s t ∧ t.dnpc = s.snpc ∧ NoEvent s t ∧ SameAround s t :=
  ⟨endCycle_writesNoRegister fun _ => rfl, rfl, ⟨rfl, rfl⟩, rfl, rfl, rfl, rfl⟩

/-- After such a cycle around one store, only the bytes of the store can have changed. -/
theorem memoryCycle_sameMemoryOutside (s : State) (a : Word) (n : Width) (v : Word) :
    SameMemoryOutside s (endCycle { beginCycle s with mem := memWrite s.mem a n v }) a n.bytes :=
  fun b hb => byteAt_memWrite_outside s.mem a b n v hb

end Sys2Proof.Machine

open Sys2Proof Sys2Proof.Machine

/-- Settles O5: the word is entry 0's, and the cycle of an accepted request writes the word read to `rd`. -/
theorem lwLoadsWord : Obligations.LwLoadsWord :=
  ⟨fun _ h => decode_of_mask (k := 0) (by decide) (by decide) (by decide) h,
    fun rd rs1 imm s hvalid => ⟨_, (exec_lw s rd rs1 imm).trans (withAccess_accepted hvalid _),
      registerCycle_writesOnly s rd rfl, registerCycle_frame s rd _⟩⟩

/-- Settles O6: the word is entry 10's, and a one-byte read is the byte zero-extended. -/
theorem lbuLoadsZeroExtendedByte : Obligations.LbuLoadsZeroExtendedByte :=
  ⟨fun _ h => decode_of_mask (k := 10) (by decide) (by decide) (by decide) h,
    fun rd rs1 imm s hvalid => ⟨_, (exec_lbu s rd rs1 imm).trans (withAccess_accepted hvalid _),
      registerCycle_writesOnly s rd (memRead_one_eq_ofNat s.mem _), registerCycle_frame s rd _⟩⟩

/-- Settles O7: the word is entry 4's, and a four-byte read after the write gives the whole word back. -/
theorem swStoresWord : Obligations.SwStoresWord :=
  ⟨fun _ h => decode_of_mask (k := 4) (by decide) (by decide) (by decide) h,
    fun rs1 rs2 imm s hvalid => ⟨_, (exec_sw s rs1 rs2 imm).trans (withAccess_accepted hvalid _), rfl,
      memRead_memWrite_four s.mem _ (s.x rs2), memoryCycle_sameMemoryOutside s _ .four (s.x rs2),
      memoryCycle_frame s _⟩⟩

/-- Settles O8: the word is entry 11's, and a one-byte write sets its one byte to the low byte of the value. -/
theorem sbStoresLowByte : Obligations.SbStoresLowByte :=
  ⟨fun _ h => decode_of_mask (k := 11) (by decide) (by decide) (by decide) h,
    fun rs1 rs2 imm s hvalid => ⟨_, (exec_sb s rs1 rs2 imm).trans (withAccess_accepted hvalid _),
      byteAt_setByte_same s.mem _ ((s.x rs2).extractLsb' 0 8), memoryCycle_sameMemoryOutside s _ .one (s.x rs2),
      memoryCycle_frame s _⟩⟩

/-- Settles O35: each fixed word encoded, and its immediate field read back. -/
theorem boundaryOffsetsRoundTrip : Obligations.BoundaryOffsetsRoundTrip := by
  unfold Obligations.BoundaryOffsetsRoundTrip
  decide
end

section
/-! SUPPORT. The control transfers: the targets said over numbers and bits, and what a cycle that decides `dnpc` leaves
of the state (spec 43_control_transfer.md R160 to R165). -/

namespace Sys2Proof

/-- The one word that decodes to `ret`: each word of an entry but the catch-all is the word of its own decoding
(R162). -/
theorem decode_eq_ret_iff {w : Word} : decode w = .ret ↔ w = 0x00008067#32 := by
  constructor
  · intro h
    have hword : encode .ret = w := h ▸ (encodeInvertsDecode w).2 (by simp [h])
    exact hword.symm.trans (by decide)
  · rintro rfl
    decide

end Sys2Proof

namespace Sys2Proof.Machine

/-! ### The targets -/

/-- Format J's halfword count shifted left by one is its signed value doubled (R71, R160). -/
theorem signExtend_shiftLeft_one (imm : BitVec 20) :
    imm.signExtend 32 <<< 1 = BitVec.ofInt 32 (2 * imm.toInt) := by
  calc imm.signExtend 32 <<< 1
    _ = imm.signExtend 32 * 2#32 := BitVec.shiftLeft_eq_mul_twoPow _ 1
    _ = 2#32 * imm.signExtend 32 := BitVec.mul_comm _ _
    _ = BitVec.ofInt 32 (2 * imm.toInt) := (BitVec.ofInt_mul 2 imm.toInt).symm

/-- Nothing is carried into bit 0 of a sum, and sign extension keeps it (R161). -/
theorem getLsbD_zero_add_signExtend (a : Word) (imm : BitVec 12) :
    (a + imm.signExtend 32).getLsbD 0 = (a.getLsbD 0 ^^ imm.getLsbD 0) := by
  rw [BitVec.getLsbD_add (by decide)]
  simp [BitVec.getElem_signExtend]

/-- The mask of `ret` clears bit 0 and keeps every other bit (R162). -/
theorem getLsbD_and_evenMask (a : Word) (i : Nat) :
    (a &&& 0xFFFFFFFE#32).getLsbD i = (a.getLsbD i && decide (0 < i)) := by
  rw [show 0xFFFFFFFE#32 = ~~~1#32 from rfl, BitVec.getLsbD_and, BitVec.getLsbD_not, BitVec.getLsbD_one]
  by_cases hi : i < 32
  · simp [hi, Nat.pos_iff_ne_zero]
  · simp [BitVec.getLsbD_of_ge _ _ (Nat.le_of_not_lt hi)]

/-- `beq` is one cycle that decides `dnpc`, the untaken branch deciding for the `snpc` presented (R163). -/
theorem exec_beq_target (s : State) (rs1 rs2 : RegIdx) (imm : BitVec 13) : exec (.beq rs1 rs2 imm) s =
    .next (endCycle (setNextPc (if s.x rs1 = s.x rs2 then s.pc + imm.signExtend 32 else s.snpc) (beginCycle s))) := by
  rw [exec_beq]
  split <;> rfl

/-! ### The frames -/

/-- A cycle that writes a link register and decides `dnpc` raises and reports nothing and changes nothing else. -/
theorem linkCycle_frame (s : State) (rd : RegIdx) (link target : Word) :
    let t := endCycle (setNextPc target ((beginCycle s).setX rd link))
    WritesOnly s t rd link ∧ t.dnpc = target ∧ NoEvent s t ∧ SameMemory s t ∧ SameAround s t :=
  ⟨endCycle_writesOnly (u := setNextPc target (beginCycle s)) (fun _ => rfl) rd link, rfl, ⟨rfl, rfl⟩, fun _ => rfl,
    rfl, rfl, rfl, rfl⟩

/-- A cycle that only decides `dnpc` writes no register, raises and reports nothing and changes nothing else. -/
theorem branchCycle_frame (s : State) (target : Word) :
    let t := endCycle (setNextPc target (beginCycle s))
    WritesNoRegister s t ∧ NoEvent s t ∧ SameMemory s t ∧ SameAround s t :=
  ⟨endCycle_writesNoRegister fun _ => rfl, ⟨rfl, rfl⟩, fun _ => rfl, rfl, rfl, rfl, rfl⟩

/-- Such a cycle that also reports an edge changes nothing but the tracer's record beside `dnpc`. -/
theorem tracedCycle_frame (s : State) (fromPc toPc target : Word) :
    let t := endCycle (callTrace fromPc toPc (setNextPc target (beginCycle s)))
    WritesNoRegister s t ∧ t.signal = none ∧ SameMemory s t ∧ SameAround s t :=
  ⟨endCycle_writesNoRegister fun _ => rfl, rfl, fun _ => rfl, rfl, rfl, rfl, rfl⟩

/-- What the driver does to `pc` after a cycle of a running machine: it copies `dnpc` where no signal ends the run, and
keeps `pc` where one does (40_execute_cycle.md R111; log 7). -/
theorem driverCommit_pc {u : State} (hrun : u.run = .running) :
    ((driverCommit u).run = .running → (driverCommit u).pc = u.dnpc) ∧
      ((driverCommit u).run ≠ .running → (driverCommit u).pc = u.pc) := by
  match hsignal : u.signal with
  | none =>
    rw [driverCommit_quiet hsignal]
    exact ⟨fun _ => rfl, fun hended => absurd hrun hended⟩
  | some (.trap p v) =>
    rw [driverCommit_trap hsignal]
    exact ⟨nofun, fun _ => rfl⟩
  | some (.invalidInstruction p) =>
    rw [driverCommit_invalid hsignal]
    exact ⟨nofun, fun _ => rfl⟩

end Sys2Proof.Machine

open Sys2Proof Sys2Proof.Machine

/-- Settles O9: the word is entry 3's, and the count shifted by one is the signed count doubled. -/
theorem jalLinksAndJumps : Obligations.JalLinksAndJumps := by
  refine ⟨fun _ h => decode_of_mask (k := 3) (by decide) (by decide) (by decide) h,
    fun rd imm s => ⟨_, exec_jal s rd imm, ?_⟩⟩
  rw [signExtend_shiftLeft_one]
  exact linkCycle_frame s rd (s.pc + 4#32) _

/-- Settles O10: the word is entry 7's but for `ret`'s, and the sum is of the old `src1`, with no bit cleared. -/
theorem jalrLinksAndKeepsBitZero : Obligations.JalrLinksAndKeepsBitZero := by
  refine ⟨fun _ h hret => decode_of_selects (k := 7) (by decide) (by decide) (Entry.selects_iff.mpr h) (.inr hret),
    fun rd rs1 imm s => ⟨_, exec_jalr s rd rs1 imm, ?_⟩⟩
  obtain ⟨hlink, hdnpc, hframe⟩ := linkCycle_frame s rd (s.pc + 4#32) (s.x rs1 + imm.signExtend 32)
  exact ⟨hlink, hdnpc, getLsbD_zero_add_signExtend (s.x rs1) imm, hframe⟩

/-- Settles O11: the mask gives the target bit by bit, and the edge reported carries the target already masked. -/
theorem retClearsBitZero : Obligations.RetClearsBitZero := by
  refine ⟨fun _ => decode_eq_ret_iff, fun s => ⟨_, exec_ret s, ?_, fun i hi => ?_, fun edges hs => ?_, fun hs => ?_,
    tracedCycle_frame s _ _ _⟩⟩
  · exact (getLsbD_and_evenMask (s.x ra) 0).trans (Bool.and_false _)
  · refine (getLsbD_and_evenMask (s.x ra) i).trans ?_
    rw [decide_eq_true hi, Bool.and_true, ra]
  · exact congrArg (Option.map _) hs
  · exact congrArg (Option.map _) hs

/-- Settles O12: the word is entry 8's, and two words are equal exactly when all their bits agree. -/
theorem beqBranchesOnEquality : Obligations.BeqBranchesOnEquality := by
  refine ⟨fun _ h => decode_of_mask (k := 8) (by decide) (by decide) (by decide) h,
    fun rs1 rs2 imm s => ⟨_, exec_beq_target s rs1 rs2 imm, fun hagree => ?_, ?_, branchCycle_frame s _⟩⟩
  · exact if_pos (BitVec.eq_of_getLsbD_eq hagree)
  · rintro ⟨i, -, hdiffer⟩
    exact if_neg fun heq => hdiffer (congrArg (BitVec.getLsbD · i) heq)

/-- Settles O40: the three jumps and `beq` by their equations, every other entry by leaving `dnpc` at the `pc + 4`
presented; then the driver's commit. -/
theorem nextPcOfEveryEntry : Obligations.NextPcOfEveryEntry := by
  intro s t hrun h
  obtain ⟨⟨p, v, hhalted⟩, -⟩ | ⟨-, -, u, hu, rfl⟩ := step_next h
  · cases hrun.symm.trans hhalted
  · obtain ⟨⟨hpc, -, -, hurun⟩, -⟩ := exec_sameAround_trace hu
    obtain ⟨hgoesOn, hended⟩ := driverCommit_pc (hurun.trans hrun)
    rw [driverCommit_dnpc]
    refine ⟨?_, hgoesOn, fun hne => (hended hne).trans hpc⟩
    generalize decode s.fetched = i at hu ⊢
    cases i with
    | jal rd imm =>
      rw [exec_jal, signExtend_shiftLeft_one] at hu
      cases hu
      rfl
    | jalr rd rs1 imm => cases hu; rfl
    | ret => cases hu; rfl
    | beq rs1 rs2 imm =>
      rw [exec_beq_target] at hu
      cases hu
      rfl
    | lw _ _ _ | addi _ _ _ | seqz _ _ | sw _ _ _ | srl _ _ _ | auipc _ _ | lbu _ _ _ | sb _ _ _ | ebreak | inv =>
      exact exec_dnpc_sequential hu rfl
end

section
/-! SUPPORT. The two signalling entries: the words they are decoded from, and what a cycle that only raises a signal
leaves of the state (spec 44_system.md R180, R181). -/

namespace Sys2Proof

/-- An instruction but the catch-all has exactly one word: the two directions of the round trip in one. -/
theorem decode_eq_iff_eq_encode {w : Word} {i : Instr} (hwf : i.wellFormed = true) (hinv : i ≠ .inv) :
    decode w = i ↔ w = encode i := by
  constructor
  · rintro rfl
    exact ((encodeInvertsDecode w).2 hinv).symm
  · rintro rfl
    exact decodeInvertsEncode i hwf

/-- The catch-all is decoded exactly where no entry before it selects the word (R181). -/
theorem decode_eq_inv_iff {w : Word} : decode w = .inv ↔ ∀ e ∈ table.take 13, e.selects w = false := by
  constructor
  · intro hinv e he
    obtain ⟨k, hk, hs, hfirst⟩ := exists_first w
    have hk13 : k = 13 := by
      by_contra hk13
      exact build_ne_inv hk hk13 w ((decode_of_first hk hs hfirst).symm.trans hinv)
    obtain ⟨j, hj, rfl⟩ := List.mem_take_iff_getElem.mp he
    exact hfirst j (hk13 ▸ lt_of_lt_of_le hj (Nat.min_le_left _ _))
  · intro hnone
    have h13 : 13 < table.length := by decide
    exact decode_of_first h13 (selects_catchAll w h13) fun j hj =>
      hnone _ (List.mem_take_iff_getElem.mpr ⟨j, lt_min hj (Nat.lt_trans hj h13), rfl⟩)

end Sys2Proof

namespace Sys2Proof.Machine

/-- A cycle whose action only raises a signal goes on at `snpc`, writes no register and changes nothing else. -/
theorem signalCycle_frame (s : State) (e : Signal) :
    let t := endCycle (raiseSignal e (beginCycle s))
    t.signal = some e ∧ t.dnpc = s.snpc ∧ t.trace = s.trace ∧ WritesNoRegister s t ∧ SameMemory s t ∧ SameAround s t :=
  ⟨rfl, rfl, rfl, endCycle_writesNoRegister fun _ => rfl, fun _ => rfl, rfl, rfl, rfl, rfl⟩

end Sys2Proof.Machine

open Sys2Proof Sys2Proof.Machine

/-- Settles O13: the one word is `encode .ebreak`, and the cycle only raises `Trap(pc, a0)`. -/
theorem ebreakRaisesTrap : Obligations.EbreakRaisesTrap :=
  ⟨fun _ => decode_eq_iff_eq_encode (i := .ebreak) rfl nofun, fun s => ⟨_, exec_ebreak s, signalCycle_frame s _⟩⟩

/-- Settles O14: only the catch-all builds `inv`, and the cycle only raises `InvalidInstruction(pc)`. -/
theorem invRaisesInvalidInstruction : Obligations.InvRaisesInvalidInstruction :=
  ⟨fun _ => decode_eq_inv_iff, fun s => ⟨_, exec_inv s, signalCycle_frame s _⟩⟩
end

section
/-! SUPPORT. The two events and the tracer (spec 60_exceptions.md R190 to R205): what a signalling cycle leaves, how the
driver ends the run on a signal, and that no step reads the tracer's record. -/

namespace Sys2Proof.Machine

/-! ### The signalling cycle -/

/-- Zeroing x0 changes nothing where it holds 0 (10_state.md R21). -/
theorem endCycle_regs_of_zeroRegister {s : State} (h : s.x 0#5 = 0#32) : (endCycle s).regs = s.regs := by
  rw [endCycle_regs, ← h]
  exact Vector.set_getElem_self _

/-- An instruction that leaves a signal has done nothing but raise it, and the signal names its own `pc`
(60_exceptions.md R194). -/
theorem exec_of_signal {i : Instr} {s t : State} {e : Signal} (h : exec i s = .next t) (he : t.signal = some e) :
    t = endCycle (raiseSignal e (beginCycle s)) ∧ ((∃ v, e = .trap s.pc v) ∨ e = .invalidInstruction s.pc) := by
  obtain ⟨rfl, hsig⟩ | ⟨rfl, hsig⟩ | ⟨-, -, hsig⟩ := exec_signal h
  · cases hsig.symm.trans he
    cases h
    exact ⟨rfl, .inl ⟨_, rfl⟩⟩
  · cases hsig.symm.trans he
    cases h
    exact ⟨rfl, .inr rfl⟩
  · cases hsig.symm.trans he

/-! ### The end of a run -/

/-- The outcome the driver records for a signal (60_exceptions.md R198, R199). -/
def Signal.outcome : Signal → RunStatus
  | .trap p v => .halted p v
  | .invalidInstruction p => .aborted p

theorem driverCommit_signalled {s : State} {e : Signal} (h : s.signal = some e) :
    driverCommit s = { s with run := e.outcome, signal := none } := by
  cases e with
  | trap p v => exact driverCommit_trap h
  | invalidInstruction p => exact driverCommit_invalid h

/-- A running step whose instruction only raises a signal records the outcome, consumes the signal, and leaves
registers, memory and `pc` as they are. -/
theorem step_signals {s : State} {e : Signal} (hrun : s.run = .running) (hv : s.memValid s.pc .four = true)
    (hexec : exec (decode s.fetched) { s with snpc := s.pc + 4#32 } =
      .next (endCycle (raiseSignal e (beginCycle { s with snpc := s.pc + 4#32 })))) :
    ∃ t, step s = .next t ∧ t.run = e.outcome ∧ t.signal = none ∧ t.pc = s.pc ∧ t.dnpc = s.pc + 4#32 ∧
      WritesNoRegister s t ∧ SameMemory s t := by
  obtain ⟨hsignal, hdnpc, -, hregs, hmem, hpc, -⟩ := signalCycle_frame { s with snpc := s.pc + 4#32 } e
  rw [step_running hrun hv, hexec, drive, driverCommit_signalled hsignal]
  exact ⟨_, rfl, rfl, rfl, hpc, hdnpc, hregs, hmem⟩

/-- An aborted run is a fault (60_exceptions.md R199; log 8). -/
theorem step_aborted {s : State} {p : Word} (h : s.run = .aborted p) : step s = .fault (.runAborted p) := by
  simp [step, whileRunning, h]

/-- A halted run is where it was after any number of steps (60_exceptions.md R198; log 7). -/
theorem runsTo_self_of_halted {s : State} {p v : Word} (h : s.run = .halted p v) (k : Nat) : RunsTo k s s := by
  induction k with
  | zero => rfl
  | succ k ih => exact ⟨s, step_halted h, ih⟩

/-! ### The tracer -/

/-- The memory collaborator is asked the same with and without a tracer, so answers that agree on acceptance agree. -/
theorem untracedResult_withAccess_untraced (s : State) (a : Word) (n : Width) {r r' : Result}
    (h : untracedResult r = untracedResult r') :
    untracedResult (withAccess s.untraced a n r) = untracedResult (withAccess s a n r') := by
  cases hv : s.memValid a n with
  | false =>
    rw [withAccess_refused hv, withAccess_refused (s := s.untraced) hv]
    rfl
  | true => rwa [withAccess_accepted hv, withAccess_accepted (s := s.untraced) hv]

/-- An instruction answers the same with the tracer taken away, the record apart. -/
theorem exec_untraced (i : Instr) (s : State) :
    untracedResult (exec i s.untraced) = untracedResult (exec i s) := by
  cases i with
  | lw rd rs1 imm =>
    rw [exec_lw, exec_lw]
    exact untracedResult_withAccess_untraced s _ _ rfl
  | lbu rd rs1 imm =>
    rw [exec_lbu, exec_lbu]
    exact untracedResult_withAccess_untraced s _ _ rfl
  | sw rs1 rs2 imm =>
    rw [exec_sw, exec_sw]
    exact untracedResult_withAccess_untraced s _ _ rfl
  | sb rs1 rs2 imm =>
    rw [exec_sb, exec_sb]
    exact untracedResult_withAccess_untraced s _ _ rfl
  | beq rs1 rs2 imm =>
    rw [exec_beq_target, exec_beq_target]
    rfl
  | addi _ _ _ | seqz _ _ | srl _ _ _ | auipc _ _ | jal _ _ | jalr _ _ _ | ret | ebreak | inv => rfl

theorem driverCommit_untraced (s : State) : driverCommit s.untraced = (driverCommit s).untraced := by
  unfold driverCommit
  rw [untraced_signal]
  split <;> rfl

theorem untracedResult_drive (r : Result) : untracedResult (drive r) = drive (untracedResult r) := by
  cases r with
  | next t => exact congrArg Host.Outcome.next (driverCommit_untraced t).symm
  | fault f => rfl
  | refused r => rfl

/-- A step answers the same with the tracer taken away, the record apart (60_exceptions.md R205). -/
theorem step_untraced (s : State) : untracedResult (step s.untraced) = untracedResult (step s) := by
  match hrun : s.run with
  | .halted p v =>
    rw [step_halted hrun, step_halted (s := s.untraced) hrun]
    rfl
  | .aborted p => rw [step_aborted hrun, step_aborted (s := s.untraced) hrun]
  | .running =>
    cases hv : s.memValid s.pc .four with
    | false =>
      rw [step_refusedFetch hrun hv, step_refusedFetch (s := s.untraced) hrun hv]
      rfl
    | true =>
      rw [step_running hrun hv, step_running (s := s.untraced) hrun hv, untracedResult_drive, untracedResult_drive]
      exact congrArg drive (exec_untraced (decode s.fetched) { s with snpc := s.pc + 4#32 })

end Sys2Proof.Machine

open Sys2Proof Sys2Proof.Machine

/-- Settles O18: `ebreak` and `inv` leave their one signal, and every other instruction leaves none. -/
theorem onlyTwoEventsExist : Obligations.OnlyTwoEventsExist := by
  intro i s t h e
  obtain ⟨rfl, hsig⟩ | ⟨rfl, hsig⟩ | ⟨hebreak, hinv, hsig⟩ := exec_signal h
  · simp [hsig, a0, eq_comm]
  · simp [hsig, eq_comm]
  · simp [hsig, hebreak, hinv]

/-- Settles O19: the whole cycle raised the signal, and zeroing x0, which was 0, changed no register. -/
theorem eventsArePrecise : Obligations.EventsArePrecise := by
  intro i s t e hsnpc hzero h he
  obtain ⟨rfl, hown⟩ := exec_of_signal h he
  exact ⟨endCycle_regs_of_zeroRegister (s := raiseSignal e (beginCycle s)) hzero, rfl, rfl, hsnpc, hown⟩

/-- Settles O21: `ret` appends its edge to the record there is, and every other instruction keeps the record. -/
theorem onlyReturnsAreTraced : Obligations.OnlyReturnsAreTraced := by
  intro i s t h
  have hother := (exec_sameAround_trace h).2
  refine ⟨fun hnone => ?_, fun edges hedges => ⟨?_, fun hi => (hother hi).trans hedges⟩⟩
  · obtain hsame | ⟨e, happend⟩ := exec_trace h
    · exact hsame.trans hnone
    · rw [happend, hnone, Option.map_none]
  · rintro rfl
    rw [exec_ret] at h
    cases h
    exact ⟨congrArg (Option.map _) hedges, rfl⟩

/-- Settles O22: whatever record is put in, taking it away again gives the same state to step from. -/
theorem tracerChangesNothing : Obligations.TracerChangesNothing := fun s trace =>
  (step_untraced { s with trace := trace }).symm.trans (step_untraced s)

/-- Settles O41: the one word of `ebreak` raises `Trap`, for which the driver halts the run. -/
theorem ebreakHaltsTheRun : Obligations.EbreakHaltsTheRun := by
  intro s hrun hv hword
  have hdecode : decode s.fetched = .ebreak := (ebreakRaisesTrap.1 _).2 hword
  obtain ⟨t, hstep, hhalted, hsignal, hpc, hdnpc, hregs, hmem⟩ :=
    step_signals hrun hv (by rw [hdecode, exec_ebreak])
  exact ⟨t, hstep, hhalted, hsignal, hpc, hdnpc, hregs, hmem, ⟨_, _, hhalted⟩, runsTo_self_of_halted hhalted⟩

/-- Settles O42: a word outside the field conditions decodes to `inv`, for whose signal the driver aborts the run. -/
theorem invalidWordAbortsTheRun : Obligations.InvalidWordAbortsTheRun := by
  intro s hrun hv hword
  have hdecode : decode s.fetched = .inv := (invalidWordsByField _).2 hword
  obtain ⟨t, hstep, haborted, hsignal, hpc, hdnpc, hregs, hmem⟩ :=
    step_signals hrun hv (by rw [hdecode, exec_inv])
  refine ⟨t, hstep, haborted, hsignal, hpc, hdnpc, hregs, hmem, ?_, step_aborted haborted⟩
  rintro ⟨p, v, hhalted⟩
  cases haborted.symm.trans hhalted
end

section
/-! SUPPORT. Reset, launch and placing a word (spec 70_reset_and_hazards.md R221, R223, R231): the registers a run starts
with, the fetch of a placed word, and that nothing stops where nothing is refused. -/

namespace Sys2Proof

/-- A table row's instruction is that of the word its bits give, the bits above `nbits` 0 (log 13, log 14). -/
theorem decode_of_decodeTableWord {nbits w : Nat} {i : Instr} (h : decodeTableWord nbits w = some i) :
    decode (BitVec.ofNat 32 (w % 2 ^ nbits)) = i := by
  have hbytes := decodeBytes_bytesOfWord (BitVec.ofNat 32 (w % 2 ^ nbits)) []
  rw [List.append_nil] at hbytes
  rw [decodeTableWord, hbytes] at h
  split at h
  · exact Option.some.inj h
  · cases h

end Sys2Proof

namespace Sys2Proof.Machine

/-! ### Reset and launch -/

/-- A run starts with `INIT_X`, and with 0 in x0 whatever `INIT_X` says (R221). -/
theorem x_launch (resetPc : Word) (initX : Vector Word 32) (initMem : List Host.Cell) (refused : List RefusedAccess)
    (trace : Bool) (r : RegIdx) : (State.launch resetPc initX initMem refused trace).x r =
      if r = 0#5 then 0#32 else initX[r.toNat]'r.isLt :=
  calc (State.launch resetPc initX initMem refused trace).x r
    _ = if 0 = r.toNat then 0#32 else initX[r.toNat]'r.isLt := Vector.getElem_set (by decide) r.isLt
    _ = if r = 0#5 then 0#32 else initX[r.toNat]'r.isLt := by simp [BitVec.toNat_eq, eq_comm]

@[simp] theorem x_reset (r : RegIdx) : State.reset.x r = 0#32 := by
  rw [← launch_reset, x_launch]
  simp [Config.resetX]

/-- A tracer that is attached at launch has no edge in its record. -/
theorem edgesEven_launch (resetPc : Word) (initX : Vector Word 32) (initMem : List Host.Cell)
    (refused : List RefusedAccess) (trace : Bool) : EdgesEven (State.launch resetPc initX initMem refused trace).trace := by
  intro edges hedges e he
  cases trace with
  | true => cases hedges; cases he
  | false => cases hedges

theorem launch_inv (resetPc : Word) (initX : Vector Word 32) (initMem : List Host.Cell)
    (refused : List RefusedAccess) (trace : Bool) : (State.launch resetPc initX initMem refused trace).Inv where
  memoryCanonical := wf_ofCells initMem
  zeroRegister := x_launch ..
  noPending := rfl
  haltedHere := nofun
  abortedHere := nofun
  edgesEven := edgesEven_launch _ _ _ _ _

/-! ### The placed word -/

/-- The fetch of a placed word is accepted: placing drops the refusals that cover it (log 13). -/
@[simp] theorem memValid_placeWord_fetch (s : State) (w : Word) : (placeWord s w).memValid s.pc .four = true := by
  simp [State.memValid]

@[simp] theorem fetched_placeWord (s : State) (w : Word) : (placeWord s w).fetched = w :=
  memRead_memWrite_four s.mem s.pc w

/-- The step after a word is placed is the driver around `exec` of that word (R223). -/
theorem step_placeWord (s : State) (w : Word) :
    step (placeWord s w) = drive (exec (decode w) { placeWord s w with snpc := s.pc + 4#32 }) := by
  rw [step_running (placeWord_run s w) (memValid_placeWord_fetch s w), fetched_placeWord]
  rfl

/-! ### Nothing refused -/

/-- Where nothing is refused every instruction answers a next state: a refused request is all that could stop it
(20_memory.md R50). -/
theorem exec_next_of_refused_nil (i : Instr) {s : State} (h : s.refused = []) : ∃ t, exec i s = .next t := by
  obtain hnext | ⟨a, n, -, hv, -⟩ := exec_next_or_refusedRequest i s
  · exact hnext
  · cases (memValid_of_refused_nil h a n).symm.trans hv

end Sys2Proof.Machine

open Sys2Proof Sys2Proof.Machine

/-- Settles O44: neither the fetch nor the instruction can be refused, and no step changes `MEM_VALID`. -/
theorem runningMachineIsNeverStuck : Obligations.RunningMachineIsNeverStuck := by
  intro s hrun hrefused
  obtain ⟨u, hu⟩ := exec_next_of_refused_nil (decode s.fetched) (s := { s with snpc := s.pc + 4#32 }) hrefused
  have hstep : step s = .next (driverCommit u) := by
    rw [step_running hrun (memValid_of_refused_nil hrefused _ _), hu, drive]
  exact ⟨_, hstep, (step_refused_trace hstep).1.trans hrefused⟩

/-- Settles O46: the placed word is the one fetched, and it decodes to the row's instruction. -/
theorem placedWordRunsNext : Obligations.PlacedWordRunsNext := by
  intro s nbits w i h
  rw [State.withFetchWord, step_placeWord, decode_of_decodeTableWord h]

/-- Settles O49: laying down bytes keeps memory canonical, x0 is 0 whatever `INIT_X` says, and no run has ended yet. -/
theorem launchHasInv : Obligations.LaunchHasInv := launch_inv

/-- Settles O48: reset is the launch of the default parameters. -/
theorem resetHasInv : Obligations.ResetHasInv := by
  rw [Obligations.ResetHasInv, ← launch_reset]
  exact launch_inv ..

/-- Settles O50: the registers are those of the launch of the default parameters, the other parts are listed in
`State.reset`. -/
theorem resetState : Obligations.ResetState :=
  ⟨x_reset 0#5, rfl, rfl, memValid_of_refused_nil rfl, rfl, rfl, x_reset, fun _ => rfl⟩
end
